-- ==== Sys2Proof/Word.lean ====
section
/-! DEFINITION. The word types of the hardware and the plainest arithmetic on them (spec 00_scope.md R7: every value is an
unsigned integer of a stated width, bit 0 the least significant). -/

namespace Sys2Proof

/-- A 16-bit quantity: a command word (R40), the index register `I` (R18), the program counter (R19). -/
abbrev Word := BitVec 16

/-- An 8-bit quantity: a timer (R12, R13), a host register (R17), a sprite row (R29), a cell of host RAM (R18). -/
abbrev Byte := BitVec 8

/-- An index of a host register, 0 to 15 (R17, R42: "used as they stand"). -/
abbrev Reg := Fin 16

/-- VF, the host register that doubles as the flag register (R17: "VF is index 15"). -/
abbrev vf : Reg := 15

end Sys2Proof
end

