-- ==== Sys2Proof/Syntax.lean ====
section
/-! DEFINITION. The instructions of the block: one constructor for each row of spec/opcode_table.json (30_encoding.md R43). -/

namespace Sys2Proof

/-- The five command words (R43, mnemonics by R47). `x` and `y` are host register indices 0 to 15 and `n` a count 0 to 15,
used as they stand (R42); every value of every field is legal (R46), so the types are exactly the legal operands. -/
inductive Instr where
  /-- `00E0`, "clear display" (R50). -/
  | clear
  /-- `DXYN`, draw an `n`-row sprite at (VX mod 64, VY mod 32) (R51 to R54). -/
  | draw (x y : Reg) (n : Fin 16)
  /-- `FX07`, "VX = DelayTimer" (R60). -/
  | getDt (x : Reg)
  /-- `FX15`, "DelayTimer = VX" (R61). -/
  | setDt (x : Reg)
  /-- `FX18`, "SoundTimer = VX" (R62). -/
  | setSt (x : Reg)
  deriving DecidableEq, Repr

end Sys2Proof
end

