-- ==== Sys2Proof/WellFormed.lean ====
section
/-! DEFINITION. What is well formed: a word that is a command of the block, by the opcode map of 30_encoding.md R43, and a ROM
image that can be loaded, by the length bound of 20_memory.md R33. An `Instr` needs no check of its own: its operand types hold
exactly the values R42 and R46 allow. -/

namespace Sys2Proof

/-- One row of the opcode map: a word `w` selects it iff `(w AND mask) = value` (R43). -/
structure OpcodeRow where
  mask : Word
  value : Word
  deriving DecidableEq, Repr

/-- "A word `w` selects an operation iff `(w AND mask) = match`" (R43). -/
def OpcodeRow.selects (r : OpcodeRow) (w : Word) : Bool := (w &&& r.mask) == r.value

/-- `00E0` (R43). -/
def clearRow : OpcodeRow := ⟨0xFFFF, 0x00E0⟩
/-- `DXYN` (R43). -/
def drawRow : OpcodeRow := ⟨0xF000, 0xD000⟩
/-- `FX07` (R43). -/
def getDtRow : OpcodeRow := ⟨0xF0FF, 0xF007⟩
/-- `FX15` (R43). -/
def setDtRow : OpcodeRow := ⟨0xF0FF, 0xF015⟩
/-- `FX18` (R43). -/
def setStRow : OpcodeRow := ⟨0xF0FF, 0xF018⟩

/-- The opcode map of the block, whole (R43). -/
def opcodeMap : List OpcodeRow := [clearRow, drawRow, getDtRow, setDtRow, setStRow]

/-- The row an instruction's words belong to. -/
def Instr.row : Instr → OpcodeRow
  | .clear => clearRow
  | .draw _ _ _ => drawRow
  | .getDt _ => getDtRow
  | .setDt _ => setDtRow
  | .setSt _ => setStRow

/-- A word addressed to the block: it matches one of the five patterns (R43, R45). -/
def isCommandWord (w : Word) : Bool := opcodeMap.any (fun r => r.selects w)

/-- Where a program is loaded (R33). -/
def loadAddress : Nat := 0x200

/-- A ROM image that can be loaded: "length ≤ 4096−0x200" (R33, R85). -/
def romFits (rom : List Byte) : Bool := rom.length ≤ 4096 - loadAddress

end Sys2Proof
end

