-- ==== Sys2Proof/Decode.lean ====
section
/-! DEFINITION. The decoder of the block's words, total on any bytes, and after it the encoder
(spec 30_encoding.md R40 to R46; 20_memory.md R28 for the byte order). -/

namespace Sys2Proof

/-- The four bits of `w` from bit `lo` up (R7: a slice; R41: a nibble). -/
def nibble (w : Word) (lo : Nat) : Fin 16 := ⟨w.toNat / 2 ^ lo % 16, Nat.mod_lt _ (by decide)⟩

/-- "register index X (bits 11-8)" (R41). -/
def fieldX (w : Word) : Reg := nibble w 8
/-- "register index Y (bits 7-4)" (R41). -/
def fieldY (w : Word) : Reg := nibble w 4
/-- "4-bit immediate N (bits 3-0)" (R41). -/
def fieldN (w : Word) : Fin 16 := nibble w 0
/-- "byte immediate NN (low byte)" (R41). -/
def fieldNN (w : Word) : Byte := w.setWidth 8
/-- "12-bit immediate NNN (low 12 bits)" (R41), as the 16-bit value it is used as. -/
def fieldNNN (w : Word) : Word := w &&& 0x0FFF

/-- The operation a word selects in the block (R43), or none for a word that is not addressed to the block (R45). -/
def decode (w : Word) : Option Instr :=
  if clearRow.selects w then some .clear
  else if drawRow.selects w then some (.draw (fieldX w) (fieldY w) (fieldN w))
  else if getDtRow.selects w then some (.getDt (fieldX w))
  else if setDtRow.selects w then some (.setDt (fieldX w))
  else if setStRow.selects w then some (.setSt (fieldX w))
  else none

/-- "the 16-bit big-endian word formed from memory[PC] and memory[PC+1]" (R28): the byte at the lower address in bits 15 to 8. -/
def wordOfBytes (first second : Byte) : Word := BitVec.ofNat 16 (first.toNat * 256 + second.toNat)

/-- The byte of a word that stands at the lower address (R28). -/
def firstByte (w : Word) : Byte := BitVec.ofNat 8 (w.toNat / 256)

/-- The byte of a word that stands at the higher address (R28). -/
def secondByte (w : Word) : Byte := BitVec.ofNat 8 w.toNat

/-- Decoding at the head of a list of bytes: the instruction and the rest. Every word is 16 bits (R40, R48), so fewer than two
bytes hold none. -/
def decodeBytes : List Byte → Option (Instr × List Byte)
  | a :: b :: rest => (decode (wordOfBytes a b)).map (fun i => (i, rest))
  | _ => none

/-- What the decoder reads from a row of the opcode table whose bits are `w`, numbered as the table numbers them (bit 0 the
least significant); bits from `nbits` up are 0. -/
def decodeTableWord (nbits w : Nat) : Option Instr :=
  let word : Word := BitVec.ofNat 16 (w % 2 ^ nbits)
  (decodeBytes [firstByte word, secondByte word]).map Prod.fst

/-- The word of an instruction, from the patterns of R43 and the field positions of R41. -/
def encode : Instr → Word
  | .clear => 0x00E0
  | .draw x y n => BitVec.ofNat 16 (0xD000 + x.val * 0x100 + y.val * 0x10 + n.val)
  | .getDt x => BitVec.ofNat 16 (0xF007 + x.val * 0x100)
  | .setDt x => BitVec.ofNat 16 (0xF015 + x.val * 0x100)
  | .setSt x => BitVec.ofNat 16 (0xF018 + x.val * 0x100)

/-- The two bytes of an instruction as the host's RAM holds them (R28). -/
def encodeBytes (i : Instr) : List Byte := [firstByte (encode i), secondByte (encode i)]

end Sys2Proof
end

