-- ==== Sys2Proof/Machine/HostSyntax.lean ====
section
/-! DEFINITION. The words that are not the block's: the host's 29 other patterns (spec 30_encoding.md R49, quoted there for
reference; 00_scope.md R5 leaves them out of the spec). The model runs them by the quoted text so that whole programs run; log
entry 11. They are no rows of the opcode table and no constructors of `Instr`. -/

namespace Sys2Proof.Machine

/-- The two-register arithmetic of the host's `8XY_` words (R49). -/
inductive AluOp where
  | copy | or | and | xor | add | sub | shiftRight | subReverse | shiftLeft
  deriving DecidableEq, Repr

/-- The host's own words (R49). -/
inductive HostInstr where
  /-- `00EE`. -/
  | ret
  /-- `1NNN`. -/
  | jump (nnn : Word)
  /-- `2NNN`. -/
  | call (nnn : Word)
  /-- `3XNN`. -/
  | skipEqImm (x : Reg) (nn : Byte)
  /-- `4XNN`. -/
  | skipNeImm (x : Reg) (nn : Byte)
  /-- `5XY0`. -/
  | skipEqReg (x y : Reg)
  /-- `9XY0`. -/
  | skipNeReg (x y : Reg)
  /-- `6XNN`. -/
  | loadImm (x : Reg) (nn : Byte)
  /-- `7XNN`. -/
  | addImm (x : Reg) (nn : Byte)
  /-- `8XY0` to `8XY7`, `8XYE`. -/
  | alu (op : AluOp) (x y : Reg)
  /-- `ANNN`. -/
  | loadIndex (nnn : Word)
  /-- `BNNN`. -/
  | jumpB (nnn : Word)
  /-- `CXNN`. -/
  | random (x : Reg) (nn : Byte)
  /-- `EX9E`. -/
  | skipKeyHeld (x : Reg)
  /-- `EXA1`. -/
  | skipKeyNotHeld (x : Reg)
  /-- `FX1E`. -/
  | addIndex (x : Reg)
  /-- `FX0A`. -/
  | waitKey (x : Reg)
  /-- `FX29`. -/
  | fontIndex (x : Reg)
  /-- `FX33`. -/
  | storeDecimal (x : Reg)
  /-- `FX55`. -/
  | storeRegs (x : Reg)
  /-- `FX65`. -/
  | loadRegs (x : Reg)
  deriving DecidableEq, Repr

/-- The operation of an `8XYN` word by its last nibble (R49). -/
def aluOfNibble (n : Fin 16) : Option AluOp :=
  match n.val with
  | 0x0 => some .copy
  | 0x1 => some .or
  | 0x2 => some .and
  | 0x3 => some .xor
  | 0x4 => some .add
  | 0x5 => some .sub
  | 0x6 => some .shiftRight
  | 0x7 => some .subReverse
  | 0xE => some .shiftLeft
  | _ => none

/-- An `FX_` word by its low byte (R49); the block's `FX07`, `FX15`, `FX18` are not among them. -/
def hostFOp (x : Reg) (nn : Nat) : Option HostInstr :=
  match nn with
  | 0x1E => some (.addIndex x)
  | 0x0A => some (.waitKey x)
  | 0x29 => some (.fontIndex x)
  | 0x33 => some (.storeDecimal x)
  | 0x55 => some (.storeRegs x)
  | 0x65 => some (.loadRegs x)
  | _ => none

/-- The host's reading of a word that is not the block's, by the pattern's first nibble (R41, R49); none is `DecodeFallthrough`
(R45, R84), which takes in every `0NNN` word but `00E0` and `00EE` (C3). -/
def decodeHost (w : Word) : Option HostInstr :=
  match (nibble w 12).val with
  | 0x0 => if w = 0x00EE then some .ret else none
  | 0x1 => some (.jump (fieldNNN w))
  | 0x2 => some (.call (fieldNNN w))
  | 0x3 => some (.skipEqImm (fieldX w) (fieldNN w))
  | 0x4 => some (.skipNeImm (fieldX w) (fieldNN w))
  | 0x5 => if fieldN w = 0 then some (.skipEqReg (fieldX w) (fieldY w)) else none
  | 0x6 => some (.loadImm (fieldX w) (fieldNN w))
  | 0x7 => some (.addImm (fieldX w) (fieldNN w))
  | 0x8 => (aluOfNibble (fieldN w)).map (fun op => .alu op (fieldX w) (fieldY w))
  | 0x9 => if fieldN w = 0 then some (.skipNeReg (fieldX w) (fieldY w)) else none
  | 0xA => some (.loadIndex (fieldNNN w))
  | 0xB => some (.jumpB (fieldNNN w))
  | 0xC => some (.random (fieldX w) (fieldNN w))
  | 0xE => if fieldNN w = 0x9E then some (.skipKeyHeld (fieldX w)) else if fieldNN w = 0xA1 then some (.skipKeyNotHeld (fieldX w)) else none
  | 0xF => hostFOp (fieldX w) (fieldNN w).toNat
  | _ => none

end Sys2Proof.Machine
end

