-- ==== Sys2Proof/Machine/Grid.lean ====
section
/-! DEFINITION. The frame buffer's cells (spec 10_state.md R11, 20_memory.md R25 and R26): 64 columns of 32 one-bit cells,
named by the pair (x, y) and by nothing else. -/

namespace Sys2Proof.Machine

/-- `boolean[64][32]`: the first index is x, 0 to 63, the second is y, 0 to 31 (R11, D16); `true` is set, `false` is clear. -/
abbrev Grid := Vector (Vector Bool 32) 64

/-- All 2048 cells clear (R50, R100). -/
def Grid.clear : Grid := Vector.replicate 64 (Vector.replicate 32 false)

/-- The cell `FB[x][y]` (R8). A position with x > 63 or y > 31 names no cell (R26): it reads as clear here, and no operation
of the block reads one, since the footprint check of R52 comes first. -/
def Grid.get (g : Grid) (x y : Nat) : Bool :=
  if hx : x < 64 then if hy : y < 32 then g[x][y] else false else false

/-- `FB[x][y] <- b` (R8); at a position that names no cell nothing is written. -/
def Grid.set (g : Grid) (x y : Nat) (b : Bool) : Grid :=
  if hx : x < 64 then if hy : y < 32 then Vector.set g x (Vector.set g[x] y b hy) hx else g else g

end Sys2Proof.Machine
end

