-- ==== Sys2Proof/Config.lean ====
section
/-! DEFINITION. The open parameters of the spec (92_eei_decisions.md, "Open parameters in one list"), the host's configuration
flags (10_state.md R23), and the free values. A machine carries one `Config`, fixed for its whole life. -/

namespace Sys2Proof

/-- Which register an 8XY6 or 8XYE shift, or the flag of 8XY6, is taken from (93_implementation_defined.md U12, conflict C7). -/
inductive ShiftSource where
  | vx
  | vy
  deriving DecidableEq, Repr

/-- The parameters. The defaults are the values the spec decides on (D4, D5, D6) or that the model names (log entries 2, 3, 12). -/
structure Config where
  /-- SPRITE_MSB_FIRST (D4, U2, R29): bit 7 of a sprite row byte is the column at the origin. PRESUMED (G1), log entry 2. -/
  spriteMsbFirst : Bool
  /-- RESET_DT (D5, U3), log entry 3. -/
  resetDT : Byte
  /-- RESET_ST (D5, U3), log entry 3. -/
  resetST : Byte
  /-- RESET_GRID (D6, U4), log entry 3. -/
  resetGrid : Machine.Grid
  /-- Where the 80-byte font table stands in host RAM (R33, R102, U14: "default 0x50"); 0 to 4016, so that the table fits. -/
  fontBase : Fin 4017
  /-- Whether FX55 and FX65 advance `I` by X+1 (R49, U13). -/
  blockCopyAdvancesI : Bool
  /-- The register 8XY6 and 8XYE shift (U12; R49 gives VY). -/
  shiftSource : ShiftSource
  /-- The register whose bit 0 is the flag of 8XY6 (C7: R49 says VX, the row of 8XYE suggests the shifted register). -/
  rightShiftFlag : ShiftSource
  deriving DecidableEq, Repr

/-- The values the spec decides on, and the model's choice where it decides on none (log entries 2, 3, 12). -/
def Config.default : Config where
  spriteMsbFirst := true
  resetDT := 0
  resetST := 0
  resetGrid := Machine.Grid.clear
  fontBase := 0x50
  blockCopyAdvancesI := false
  shiftSource := .vy
  rightShiftFlag := .vx

/-- `randomByte()` of the host's CXNN (R49, U16): a free value, one for each draw. Log entry 13. -/
opaque Config.randomByte : Nat → Byte

/-- Whether `key VX` is held when VX is above 15 and so names no key (R49 rows EX9E, EXA1): a free value. Log entry 14. -/
opaque Config.absentKeyHeld : Nat → Byte → Bool

end Sys2Proof
end

