-- ==== Sys2Proof/Machine/State.lean ====
section
/-! DEFINITION. The state of the machine as plain data: the block's five items (spec 10_state.md R10), the host state that the
block's words reach through the interface (R17 to R19) with what the spec names beside it (R85, R97, R102), the environment's
part (20_memory.md R35), and the fixed parameters. -/

namespace Sys2Proof.Machine

/-- `fault_cause`: "An enumeration with three values", no numeric codes (R15, D12). -/
inductive FaultCause where
  | none
  | displayOutOfBounds
  | hostFault
  deriving DecidableEq, Repr

/-- "The complete state of the block is five items and nothing else" (R10). -/
structure Block where
  /-- `FB`, 2048 one-bit cells (R11). -/
  fb : Grid
  /-- `DT`, the delay timer (R12). -/
  dt : Byte
  /-- `ST`, the sound timer (R13). -/
  st : Byte
  /-- `halted` (R14). -/
  halted : Bool
  /-- `fault_cause` (R15). -/
  faultCause : FaultCause
  deriving DecidableEq, Repr

/-- Host RAM as a list of cells, addresses strictly rising, none of them zero: an unlisted address reads as 0, the value RAM is
filled with (R102: "zero-filled"). Log entry 10. -/
abbrev Memory := List Host.Cell

/-- The fatal faults the host names (R84, R85). -/
inductive HostFault where
  | memoryOutOfBounds
  | stackOverflow
  | stackUnderflow
  | romLoadFailure
  deriving DecidableEq, Repr

/-- Where the host's instruction loop stands. That a fatal fault has stopped it is not said here but by the block's `halted`
(R81, R82, R89). -/
inductive Loop where
  /-- Instructions are issued. -/
  | running
  /-- FX0A has suspended instruction issue; the key's nibble goes to register `x` (R49, R98). -/
  | parked (x : Reg)
  /-- The ROM did not load, so the loop never started (R85). -/
  | notStarted
  deriving DecidableEq, Repr

/-- The state of the host (the instruction interpreter). -/
structure HostState where
  /-- V0 to VF (R17). -/
  v : Vector Byte 16
  /-- The index register `I` (R18). -/
  i : Word
  /-- The program counter (R19). -/
  pc : Word
  /-- Host RAM, addresses 0 to 4095 (R18). -/
  mem : Memory
  /-- The call stack, newest first, at most 32 entries (R85, R102, C6). Log entry 25. -/
  stack : List Word
  /-- Where the instruction loop stands (R85, R98). -/
  loop : Loop
  /-- The current key-state snapshot, one entry for each key nibble (R96). -/
  keys : Vector Bool 16
  /-- How many unrecognised words were counted (R97). Log entry 26. -/
  fallthroughs : Nat
  /-- The last fatal fault the host reported, if any (R84, R91). Log entry 16. -/
  fault : Option HostFault
  deriving DecidableEq, Repr

/-- Who moves next (R35, R93), with what it presents. -/
inductive Turn where
  /-- The host's loop runs one step (R73). -/
  | host
  /-- The tick source presents a gate event (R63). -/
  | tick
  /-- The presenter copies the grid out (R56). -/
  | snapshot
  /-- The halt input is asserted for a fatal fault of the host that arose outside this model (R87). Log entry 23. -/
  | haltInput
  /-- The platform presents RESET (R100). -/
  | reset
  /-- The platform starts the whole machine up with a ROM image and the font table (R101 to R103). Log entry 9. -/
  | startUp (rom : List Byte) (font : Vector Byte 80)
  /-- A key goes down (R92, R98). -/
  | keyDown (k : Fin 16)
  /-- A key goes up (R92). -/
  | keyUp (k : Fin 16)
  deriving DecidableEq, Repr

/-- The whole machine. -/
structure State where
  /-- The display and timer unit. -/
  block : Block
  /-- The host around it. -/
  host : HostState
  /-- The presenter's last copy of the grid, which "is the presenter's and is not updated by later draws" (R22). Log entry 18. -/
  presenter : Option Grid
  /-- Who moves next, in order; when it is empty, the host (R23, R35, D14). Log entry 6. -/
  schedule : List Turn
  /-- The parameters (R23), never written. -/
  config : Config
  /-- The model's own counter of free values drawn so far. Log entry 13. -/
  freeDraws : Nat
  deriving DecidableEq, Repr

/-- Why the machine stops. No instruction of the block stops; these say that nothing is left that could move. -/
inductive Fault where
  /-- Raised by `step` when the block is halted and no other agent's turn is left: the terminal halted state has no successor
  of the host's (R88, U9 `stuck`). Safe: the machine stops where the hardware stays frozen. -/
  | halted
  /-- Raised by `step` when the ROM failed to load and no other agent's turn is left: "fatal at startup, surfaced before the
  loop starts" (R84, R85). Safe: nothing runs. -/
  | romLoadFailure
  deriving DecidableEq, Repr

/-- Why an instruction has no meaning. -/
inductive Refusal where
  /-- Raised by `exec` alone, for an instruction whose meaning is not written yet; no arm raises it now. Safe. -/
  | notModelled (mnemonic : String)
  deriving DecidableEq, Repr

/-- The block after RESET (R24, R100), with the parameters RESET_DT, RESET_ST, RESET_GRID (D5, D6). -/
def Block.afterReset (c : Config) : Block where
  fb := c.resetGrid
  dt := c.resetDT
  st := c.resetST
  halted := false
  faultCause := .none

/-- The host at start-up before any ROM and font are copied in (R102): RAM zero-filled, stack empty. The values of V, `I`, the
keys and the program counter are the model's choice, since the spec states none (N5, U19). DESIGN CHOICE, log entry 4. -/
def HostState.afterReset : HostState where
  v := Vector.replicate 16 0
  i := 0
  pc := 0x200
  mem := []
  stack := []
  loop := .running
  keys := Vector.replicate 16 false
  fallthroughs := 0
  fault := none

/-- The machine right after reset (R24, R100, R102). -/
def State.reset : State where
  block := Block.afterReset Config.default
  host := HostState.afterReset
  presenter := none
  schedule := []
  config := Config.default
  freeDraws := 0

end Sys2Proof.Machine
end

