-- ==== Sys2Proof/Machine/Ops.lean ====
section
/-! DEFINITION. The named operations over memory, registers and the fault status that every meaning is written with. -/

namespace Sys2Proof.Machine

/-! ### Host RAM (R18, R27) -/

/-- The number of cells of host RAM: addresses 0 to 4095 (R18). -/
def memSize : Nat := 4096

/-- The byte at an address; an unlisted one reads as 0 (R102: RAM is "zero-filled"). -/
def Memory.read : Memory → Nat → Byte
  | [], _ => 0
  | (k, v) :: rest, a => if k = a then v else Memory.read rest a

/-- Writes one byte and keeps the canonical form: a cell that becomes 0 is unlisted again. -/
def Memory.write : Memory → Nat → Byte → Memory
  | [], a, b => if b = 0 then [] else [(a, b)]
  | (k, v) :: rest, a, b =>
    if a < k then (if b = 0 then (k, v) :: rest else (a, b) :: (k, v) :: rest)
    else if a = k then (if b = 0 then rest else (k, b) :: rest)
    else (k, v) :: Memory.write rest a b

/-- The canonical form: addresses strictly rising, each inside RAM, no cell listed with the value an unlisted one has. -/
def Memory.wf : Memory → Bool
  | [] => true
  | (k, v) :: rest => decide (k < memSize) && decide (v ≠ 0) && rest.all (fun c => decide (k < c.1)) && Memory.wf rest

/-- Bytes written at ascending addresses. -/
def Memory.writeList : Memory → Nat → List Byte → Memory
  | m, _, [] => m
  | m, a, b :: rest => Memory.writeList (Memory.write m a b) (a + 1) rest

/-- `MemRead(addr, 1)` (R8): one byte, or none for the host's `MemoryOutOfBounds` at an address above 4095 (R27). -/
def memRead (m : Memory) (a : Nat) : Option Byte := if a < memSize then some (m.read a) else none

/-- `count` bytes at `a`, `a + 1`, … in plain integers (R77); none if any address is above 4095. With a count of 0 nothing is
read and no address is checked. -/
def readBytes (m : Memory) (a : Nat) : Nat → Option (List Byte)
  | 0 => some []
  | count + 1 =>
    match memRead m a, readBytes m (a + 1) count with
    | some b, some rest => some (b :: rest)
    | _, _ => none

/-- Bytes stored at ascending addresses by a host word; none if any address is above 4095, and then none is stored
("There is no partial-apply", R52). Log entry 15. -/
def storeBytes (m : Memory) (a : Nat) (bytes : List Byte) : Option Memory :=
  if a + bytes.length ≤ memSize then some (m.writeList a bytes) else none

/-! ### Host registers (R17, R19) -/

/-- `V[x]` (R8). No register is hardwired (R17). -/
def HostState.readV (h : HostState) (x : Reg) : Byte := h.v[x.val]

/-- `V[x] <- b` (R8). -/
def HostState.writeV (h : HostState) (x : Reg) (b : Byte) : HostState := { h with v := h.v.set x.val b }

/-- `pc <- pc + 2` (R73 step 3, R19). -/
def HostState.advance (h : HostState) : HostState := { h with pc := h.pc + 2 }

/-- The word at the program counter, big-endian (R28, R73 steps 1 and 2); none if `pc` or `pc + 1` is above 4095. -/
def HostState.fetchWord (h : HostState) : Option Word :=
  match readBytes h.mem h.pc.toNat 2 with
  | some [a, b] => some (wordOfBytes a b)
  | _ => none

/-- The machine with a new block. -/
def State.setBlock (s : State) (b : Block) : State := { s with block := b }

/-- The machine with a new host state. -/
def State.setHost (s : State) (h : HostState) : State := { s with host := h }

/-! ### Taking a fault, and the way out of it -/

/-- Taking a fatal fault, the ONE operation for both causes: `halted <- 1` and `fault_cause <- cause`, with `FB`, `DT`, `ST`
unchanged and nothing else saved (R86, R87, R88). An already halted block keeps its first cause (R87, R90). -/
def Block.takeFault (cause : FaultCause) (b : Block) : Block :=
  if b.halted then b else { b with halted := true, faultCause := cause }

/-- The halt input (R87): "`halted <- 1`, `fault_cause <- HostFault`". -/
def Block.haltInput (b : Block) : Block := b.takeFault .hostFault

/-- RESET (R100), the only way out of the halted state (R90); it is accepted in every state. -/
def Block.reset (c : Config) (_ : Block) : Block := Block.afterReset c

/-- The host takes one of its fatal faults: it reports it by name and asserts the block's halt input (R82). No register is
written. -/
def State.hostFatal (f : HostFault) (s : State) : State :=
  { s with block := s.block.haltInput, host := { s.host with fault := some f } }

end Sys2Proof.Machine
end

