-- ==== Sys2Proof/Machine/Flags.lean ====
section
/-! DEFINITION. Flag computations: the collision result as VF receives it, the beep level, and the flags of the host's own
arithmetic words. -/

namespace Sys2Proof.Machine

/-- A flag as an 8-bit register value: 0x01 or 0x00 (R78, D17). -/
def flagByte (b : Bool) : Byte := if b then 1 else 0

/-- "the host sets V[15] to 0x01 if `collision` = 1 and to 0x00 if `collision` = 0" (R78). -/
def HostState.writeFlag (h : HostState) (b : Bool) : HostState := h.writeV vf (flagByte b)

/-- The output `beep`: "1 iff `ST > 0`" (R21, R65). -/
def Block.beep (b : Block) : Bool := b.st != 0

/-- The shifted register of 8XY6 and 8XYE (R49, U12). -/
def ShiftSource.pick (src : ShiftSource) (vx vy : Byte) : Byte :=
  match src with
  | .vx => vx
  | .vy => vy

/-- The result of an `8XY_` word, and its flag where it has one (R49): carry, no-borrow, or the bit shifted out. -/
def aluResult (c : Config) (op : AluOp) (vx vy : Byte) : Byte × Option Bool :=
  match op with
  | .copy => (vy, none)
  | .or => (vx ||| vy, none)
  | .and => (vx &&& vy, none)
  | .xor => (vx ^^^ vy, none)
  | .add => (vx + vy, some (decide (255 < vx.toNat + vy.toNat)))
  | .sub => (vx - vy, some (decide (vy.toNat ≤ vx.toNat)))
  | .shiftRight => (ShiftSource.pick c.shiftSource vx vy >>> 1, some ((ShiftSource.pick c.rightShiftFlag vx vy).getLsbD 0))
  | .subReverse => (vy - vx, some (decide (vx.toNat ≤ vy.toNat)))
  | .shiftLeft => (ShiftSource.pick c.shiftSource vx vy <<< 1, some ((ShiftSource.pick c.shiftSource vx vy).getLsbD 7))

/-- FX1E (R49): the new `I`, and whether the sum was above 0xFFF. -/
def indexSum (i : Word) (vx : Byte) : Word × Bool :=
  let sum := i.toNat + vx.toNat
  if sum > 0xFFF then (BitVec.ofNat 16 (sum % 4096), true) else (BitVec.ofNat 16 sum, false)

end Sys2Proof.Machine
end

