-- ==== Sys2Proof/Machine/Operands.lean ====
section
/-! DEFINITION. The operand forms: the origin and footprint of a draw, the bits of a sprite row, the sprite fetch, and the
operands of the host's own words. -/

namespace Sys2Proof.Machine

/-- `x0 = x_in mod 64` (R51). -/
def originX (xIn : Byte) : Nat := xIn.toNat % 64

/-- `y0 = y_in mod 32` (R51). -/
def originY (yIn : Byte) : Nat := yIn.toNat % 32

/-- The footprint of an n-row sprite lies inside the grid "iff `x0 <= 56` and `y0 + n <= 32`"; a draw with n = 0 has an empty
footprint (R52). -/
def footprintInside (x0 y0 n : Nat) : Bool := n == 0 || (decide (x0 ≤ 56) && decide (y0 + n ≤ 32))

/-- The bit of a row byte at column offset `c`: "bit 7−c is the pixel at column offset c" (R29), under the parameter
SPRITE_MSB_FIRST (D4); with the parameter false the order is mirrored. Log entry 2. -/
def spriteBit (msbFirst : Bool) (row : Byte) (c : Nat) : Bool := row.getLsbD (if msbFirst then 7 - c else c)

/-- The cells under the set bits of one sprite row, bit by bit (R53). -/
def rowCells (msbFirst : Bool) (x0 y : Nat) (row : Byte) : List (Nat × Nat) :=
  (List.range 8).filterMap (fun c => if spriteBit msbFirst row c then some (x0 + c, y) else none)

/-- The cells under the set bits of a sprite, row by row from grid row `y` on (R51: "sprite row r, column c" lies at
(x0 + c, y0 + r), "computed as plain integers with no reduction"). -/
def spriteCells (msbFirst : Bool) (x0 : Nat) : Nat → List Byte → List (Nat × Nat)
  | _, [] => []
  | y, row :: rest => rowCells msbFirst x0 y row ++ spriteCells msbFirst x0 (y + 1) rest

/-- The sprite rows of `DXYN`: N bytes at I, I+1, … (R77), or none for `MemoryOutOfBounds`. -/
def HostState.spriteRows (h : HostState) (n : Fin 16) : Option (List Byte) := readBytes h.mem h.i.toNat n.val

/-- Whether "key VX" is currently held (R49 rows EX9E, EXA1); a value above 15 names no key, and the answer is then a free
value. Log entry 14. -/
def keyHeld (keys : Vector Bool 16) (draw : Nat) (vx : Byte) : Bool :=
  if h : vx.toNat < 16 then keys[vx.toNat] else Config.absentKeyHeld draw vx

/-- The three decimal digits of FX33 (R49): VX/100, VX/10, VX, each mod 10. -/
def decimalDigits (vx : Byte) : List Byte :=
  [BitVec.ofNat 8 (vx.toNat / 100 % 10), BitVec.ofNat 8 (vx.toNat / 10 % 10), BitVec.ofNat 8 (vx.toNat % 10)]

/-- `fontBase + (VX AND 0x0F) × 5` (R49 row FX29). -/
def fontAddress (c : Config) (vx : Byte) : Word := BitVec.ofNat 16 (c.fontBase.val + vx.toNat % 16 * 5)

/-- V0 to VX, the registers FX55 stores (R49). -/
def HostState.firstRegs (h : HostState) (x : Reg) : List Byte := h.v.toList.take (x.val + 1)

/-- Registers from `at` on take the bytes in order (R49 row FX65); a register above VF does not exist and takes none. -/
def writeRegs (v : Vector Byte 16) : Nat → List Byte → Vector Byte 16
  | _, [] => v
  | at', b :: rest => writeRegs (v.setIfInBounds at' b) (at' + 1) rest

end Sys2Proof.Machine
end

