-- ==== Sys2Proof/Machine/Display.lean ====
section
/-! DEFINITION. The display family: CLEAR and DRAW as the block performs them (spec 40_display_ops.md), with the host's binding
around them (42_host_binding.md R75 to R78), and SNAPSHOT (R56). -/

namespace Sys2Proof.Machine

/-- Complements the listed cells one after another, and reports whether any of them held 1 (R53's loop: `old <- FB`,
`FB <- old XOR 1`, `if old = 1: collision <- 1`). -/
def xorCells : List (Nat × Nat) → Grid × Bool → Grid × Bool
  | [], acc => acc
  | (x, y) :: rest, acc => xorCells rest (acc.1.set x y (!acc.1.get x y), acc.2 || acc.1.get x y)

/-- CLEAR (R50); a halted block ignores it (R89). -/
def Block.clear (b : Block) : Block := if b.halted then b else { b with fb := Grid.clear }

/-- DRAW (R51 to R54) on the operand values of R44; the count n is the number of rows the host passes. The result is the
`collision` bit, or none if the draw raised `DisplayOutOfBounds` (R52, R86) or the block is halted and ignores it (R89). -/
def Block.draw (msbFirst : Bool) (xIn yIn : Byte) (rows : List Byte) (b : Block) : Block × Option Bool :=
  if b.halted then (b, none)
  else if footprintInside (originX xIn) (originY yIn) rows.length then
    let drawn := xorCells (spriteCells msbFirst (originX xIn) (originY yIn) rows) (b.fb, false)
    ({ b with fb := drawn.1 }, some drawn.2)
  else (b.takeFault .displayOutOfBounds, none)

/-- The word `00E0`: "It reads and writes no register, `I`, RAM or stack" (R75). -/
def execClear (s : State) : Host.Outcome State Fault Refusal := .next (s.setBlock s.block.clear)

/-- What the host does with the result of a draw: VF takes the collision bit after the grid is written (R76 step 4, R78,
R104); a draw without a result writes no register (R81). -/
def finishDraw (result : Block × Option Bool) (s : State) : State :=
  match result.2 with
  | some collision => (s.setBlock result.1).setHost (s.host.writeFlag collision)
  | none => s.setBlock result.1

/-- The word `DXYN` (R76): coordinates are sampled first, then the rows are fetched, whose fault comes before the draw (R77,
R91), then the block draws, then VF is written. While the block is halted the host has stopped and nothing happens (R89). -/
def execDraw (x y : Reg) (n : Fin 16) (s : State) : Host.Outcome State Fault Refusal :=
  if s.block.halted then .next s
  else
    match s.host.spriteRows n with
    | none => .next (s.hostFatal .memoryOutOfBounds)
    | some rows => .next (finishDraw (s.block.draw s.config.spriteMsbFirst (s.host.readV x) (s.host.readV y) rows) s)

/-- SNAPSHOT (R56): a copy of all cells for the presenter, in every state, `halted = 1` included; nothing else changes. -/
def snapshotTurn (s : State) : State := { s with presenter := some s.block.fb }

end Sys2Proof.Machine
end

