-- ==== Sys2Proof/Machine/Timer.lean ====
section
/-! DEFINITION. The timer family: GETDT, SETDT, SETST and TICK as the block performs them (spec 41_timer_ops.md), with the
host's binding around them (42_host_binding.md R79, R80). -/

namespace Sys2Proof.Machine

/-- GETDT (R60): the 8-bit result, or none from a halted block, which accepts no command (R89). -/
def Block.getDt (b : Block) : Option Byte := if b.halted then none else some b.dt

/-- SETDT (R61). -/
def Block.setDt (v : Byte) (b : Block) : Block := if b.halted then b else { b with dt := v }

/-- SETST (R62). -/
def Block.setSt (v : Byte) (b : Block) : Block := if b.halted then b else { b with st := v }

/-- One decrement toward the floor of 0: "never decremented below 0" (R63, R64). -/
def countDown (t : Byte) : Byte := if t = 0 then 0 else t - 1

/-- TICK (R63): both timers in one event (D7); not accepted while halted (R69). -/
def Block.tick (b : Block) : Block := if b.halted then b else { b with dt := countDown b.dt, st := countDown b.st }

/-- The word `FX07` (R79): `V[X] <- rd`; with X = 15 VF receives the timer value as data. -/
def execGetDt (x : Reg) (s : State) : Host.Outcome State Fault Refusal :=
  match s.block.getDt with
  | some rd => .next (s.setHost (s.host.writeV x rd))
  | none => .next s

/-- The word `FX15` (R80): `issue(SETDT, V[X])`; no register is written. -/
def execSetDt (x : Reg) (s : State) : Host.Outcome State Fault Refusal :=
  .next (s.setBlock (s.block.setDt (s.host.readV x)))

/-- The word `FX18` (R80): `issue(SETST, V[X])`; no register is written. -/
def execSetSt (x : Reg) (s : State) : Host.Outcome State Fault Refusal :=
  .next (s.setBlock (s.block.setSt (s.host.readV x)))

end Sys2Proof.Machine
end

