-- ==== Sys2Proof/Machine/Dispatch.lean ====
section
/-! DEFINITION. The meaning of every instruction, one arm per row of the opcode table (spec 30_encoding.md R43). -/

namespace Sys2Proof.Machine

def exec (i : Instr) (s : State) : Host.Outcome State Fault Refusal :=
  match i with
  | .clear => Sys2Proof.Machine.execClear s
  | .draw x y n => Sys2Proof.Machine.execDraw x y n s
  | .getDt x => Sys2Proof.Machine.execGetDt x s
  | .setDt x => Sys2Proof.Machine.execSetDt x s
  | .setSt x => Sys2Proof.Machine.execSetSt x s

end Sys2Proof.Machine
end

