-- ==== Sys2Proof/Machine/HostWords.lean ====
section
/-! DEFINITION. What the host does with its own words, by the effect text quoted in spec 30_encoding.md R49. These words are
outside the spec (00_scope.md R5) and outside the opcode table; log entry 11 says why the model runs them. None of them touches
`FB`, `DT` or `ST` (R49); a fatal one asserts the halt input (R82). The program counter has advanced already (R73 step 3). -/

namespace Sys2Proof.Machine

/-- "fixed capacity 32" (C6; R85: a 33rd `2NNN` overflows). -/
def stackCapacity : Nat := 32

/-- Skips the next word, 2 bytes on, where the condition holds (R49). -/
def HostState.skipIf (h : HostState) (cond : Bool) : HostState := if cond then { h with pc := h.pc + 2 } else h

/-- A result and, after it, its flag (R17: a flag is written "only after the data write completes"). -/
def HostState.writeResult (h : HostState) (x : Reg) (result : Byte × Option Bool) : HostState :=
  match result.2 with
  | some flag => (h.writeV x result.1).writeFlag flag
  | none => h.writeV x result.1

/-- FX33 and FX55 (R49): the bytes stored from `I` on, or the host's `MemoryOutOfBounds`; `newI` is `I` afterwards. -/
def hostStore (bytes : List Byte) (newI : Word) (s : State) : State :=
  match storeBytes s.host.mem s.host.i.toNat bytes with
  | some m => s.setHost { s.host with mem := m, i := newI }
  | none => s.hostFatal .memoryOutOfBounds

/-- `I` after FX55 and FX65: advanced by X+1 where the configuration says so (R49, U13). -/
def blockCopyIndex (x : Reg) (s : State) : Word :=
  if s.config.blockCopyAdvancesI then s.host.i + BitVec.ofNat 16 (x.val + 1) else s.host.i

/-- FX65 (R49): V0 to VX from `memory[I..I+X]`, or `MemoryOutOfBounds`. -/
def hostLoadRegs (x : Reg) (s : State) : State :=
  match readBytes s.host.mem s.host.i.toNat (x.val + 1) with
  | some bytes => s.setHost { s.host with v := writeRegs s.host.v 0 bytes, i := blockCopyIndex x s }
  | none => s.hostFatal .memoryOutOfBounds

/-- `2NNN` (R49): pushes the already advanced program counter; "full-stack push is a fatal fault". -/
def hostCall (target : Word) (s : State) : State :=
  if s.host.stack.length < stackCapacity then s.setHost { s.host with stack := s.host.pc :: s.host.stack, pc := target }
  else s.hostFatal .stackOverflow

/-- `00EE` (R49): "empty-stack pop is a fatal fault". -/
def hostReturn (s : State) : State :=
  match s.host.stack with
  | top :: rest => s.setHost { s.host with stack := rest, pc := top }
  | [] => s.hostFatal .stackUnderflow

/-- `EX9E` and `EXA1` (R49): skips when the key is (`whenHeld`) or is not held. Each draws one free value's index. -/
def hostSkipKey (whenHeld : Bool) (x : Reg) (s : State) : State :=
  { s.setHost (s.host.skipIf (keyHeld s.host.keys s.freeDraws (s.host.readV x) == whenHeld)) with freeDraws := s.freeDraws + 1 }

/-- `CXNN` (R49): "VX = randomByte() AND NN"; the random byte is a free value. -/
def hostRandom (x : Reg) (nn : Byte) (s : State) : State :=
  { s.setHost (s.host.writeV x (Config.randomByte s.freeDraws &&& nn)) with freeDraws := s.freeDraws + 1 }

/-- `FX1E` (R49): the index register, then the flag. -/
def hostAddIndex (x : Reg) (s : State) : State :=
  let sum := indexSum s.host.i (s.host.readV x)
  s.setHost (HostState.writeFlag { s.host with i := sum.1 } sum.2)

/-- The effect of one host word (R49). -/
def execHostInstr (i : HostInstr) (s : State) : State :=
  let h := s.host
  match i with
  | .ret => hostReturn s
  | .jump nnn => s.setHost { h with pc := nnn }
  | .call nnn => hostCall nnn s
  | .skipEqImm x nn => s.setHost (h.skipIf (h.readV x == nn))
  | .skipNeImm x nn => s.setHost (h.skipIf (h.readV x != nn))
  | .skipEqReg x y => s.setHost (h.skipIf (h.readV x == h.readV y))
  | .skipNeReg x y => s.setHost (h.skipIf (h.readV x != h.readV y))
  | .loadImm x nn => s.setHost (h.writeV x nn)
  | .addImm x nn => s.setHost (h.writeV x (h.readV x + nn))
  | .alu op x y => s.setHost (h.writeResult x (aluResult s.config op (h.readV x) (h.readV y)))
  | .loadIndex nnn => s.setHost { h with i := nnn }
  | .jumpB nnn => s.setHost { h with pc := nnn }
  | .random x nn => hostRandom x nn s
  | .skipKeyHeld x => hostSkipKey true x s
  | .skipKeyNotHeld x => hostSkipKey false x s
  | .addIndex x => hostAddIndex x s
  | .waitKey x => s.setHost { h with loop := .parked x }
  | .fontIndex x => s.setHost { h with i := fontAddress s.config (h.readV x) }
  | .storeDecimal x => hostStore (decimalDigits (h.readV x)) h.i s
  | .storeRegs x => hostStore (h.firstRegs x) (blockCopyIndex x s) s
  | .loadRegs x => hostLoadRegs x s

/-- A word that matches none of the block's five patterns (R45): the host runs its own word, or counts a
`DecodeFallthrough`, which is not fatal and resumes "at the already-advanced PC" (R45, R84, R97). -/
def execHostWord (w : Word) (s : State) : State :=
  match decodeHost w with
  | some i => execHostInstr i s
  | none => s.setHost { s.host with fallthroughs := s.host.fallthroughs + 1 }

end Sys2Proof.Machine
end

