-- ==== Sys2Proof/Machine/Turns.lean ====
section
/-! DEFINITION. What each agent's turn does: one step of the host's loop (spec 42_host_binding.md R73), and the interface events
of the tick source, the presenter, the platform and the input device (20_memory.md R35, 60_exceptions.md R93). -/

namespace Sys2Proof.Machine

/-- One host step (R73): the fetch check, the word, the advance of the program counter, then the block's command or the host's
own word. -/
def hostCycle (s : State) : Host.Outcome State Fault Refusal :=
  match s.host.fetchWord with
  | none => .next (s.hostFatal .memoryOutOfBounds)
  | some w =>
    match decode w with
    | some i => exec i (s.setHost s.host.advance)
    | none => .next (execHostWord w (s.setHost s.host.advance))

/-- The host's turn: nothing runs while the block is halted (R89: the host has stopped), while the host is parked at a key wait
(R98) or when its loop never started (R85). -/
def hostTurn (s : State) : Host.Outcome State Fault Refusal :=
  if s.block.halted then .next s
  else
    match s.host.loop with
    | .running => hostCycle s
    | .parked _ => .next s
    | .notStarted => .next s

/-- RAM with a ROM image from 0x200 upward and the font table from the configured base (R33, R102). -/
def loadedMemory (c : Config) (rom : List Byte) (font : Vector Byte 80) : Memory :=
  Memory.writeList (Memory.writeList [] loadAddress rom) c.fontBase.val font.toList

/-- Start-up of the whole machine (R101 to R103): the block is reset, the host initialised "once", ROM and font copied in. A ROM
above the length bound is the ROM-load failure: the loop never starts and the block stays in its reset state (R85). What the
host holds after that failure the spec does not say; here RAM is all zero, with neither ROM nor font copied in, and the rest is
at its start values. DESIGN CHOICE, unsafe, log entry 36. -/
def startUpTurn (rom : List Byte) (font : Vector Byte 80) (s : State) : State :=
  { s with
    block := Block.afterReset s.config
    host :=
      if romFits rom then { HostState.afterReset with mem := loadedMemory s.config rom font }
      else { HostState.afterReset with loop := .notStarted, fault := some .romLoadFailure }
    presenter := none }

/-- A key goes down: the snapshot shows it held, and the edge ends a key wait, storing "that key's nibble into VX" (R49 row
FX0A, R98). A key that is held already gives no edge, and a stopped host takes none. Log entry 17. -/
def keyDownTurn (k : Fin 16) (s : State) : State :=
  let held := { s.host with keys := s.host.keys.set k.val true }
  match s.block.halted, s.host.keys[k.val], s.host.loop with
  | false, false, .parked x => s.setHost { held.writeV x (BitVec.ofNat 8 k.val) with loop := .running }
  | _, _, _ => s.setHost held

/-- A key goes up. -/
def keyUpTurn (k : Fin 16) (s : State) : State := s.setHost { s.host with keys := s.host.keys.set k.val false }

/-- The turn of whoever moves next (R35). -/
def takeTurn (t : Turn) (s : State) : Host.Outcome State Fault Refusal :=
  match t with
  | .host => hostTurn s
  | .tick => .next (s.setBlock s.block.tick)
  | .snapshot => .next (snapshotTurn s)
  | .haltInput => .next (s.setBlock s.block.haltInput)
  | .reset => .next (s.setBlock (s.block.reset s.config))
  | .startUp rom font => .next (startUpTurn rom font s)
  | .keyDown k => .next (keyDownTurn k s)
  | .keyUp k => .next (keyUpTurn k s)

/-- What happens when nobody else is to move: the host goes on, unless a fault has ended the run (R88: the halted state has no
successor of the host's; R85: the loop never started). -/
def runAlone (s : State) : Host.Outcome State Fault Refusal :=
  if s.block.halted then .fault .halted
  else
    match s.host.loop with
    | .notStarted => .fault .romLoadFailure
    | _ => hostTurn s

/-- What the agents present at one and the same instant. -/
structure Instant where
  command : Bool
  tick : Bool
  snapshot : Bool
  deriving DecidableEq, Repr

/-- The order of what is presented at one instant. A command and a TICK: "the command is ordered first" (R35, R68, D8); a TICK or
SNAPSHOT presented with a FAULTING command "is ordered after it" (R91, D13). That a SNAPSHOT comes after a command that completes,
and after a TICK, no rule says. DESIGN CHOICE, log entry 24. -/
def Instant.turns (i : Instant) : List Turn :=
  (if i.command then [.host] else []) ++ (if i.tick then [.tick] else []) ++ (if i.snapshot then [.snapshot] else [])

/-- An instant joins the end of the schedule. -/
def State.present (i : Instant) (s : State) : State := { s with schedule := s.schedule ++ i.turns }

/-- A state in which the very next step fetches and runs the host's word: nobody else's turn comes first, the block is not
halted, the loop runs, and the program counter is where a word can be fetched. -/
def State.readyToFetch (s : State) : State :=
  { s with
    schedule := []
    block := if s.block.halted then { s.block with halted := false, faultCause := .none } else s.block
    host := { s.host with
      loop := .running
      pc := if s.host.pc.toNat + 1 < memSize then s.host.pc else 0x200 } }

/-- The word stored where the host fetches next, big-endian (R28). -/
def State.storeWordAtPc (w : Word) (s : State) : State :=
  s.setHost { s.host with mem := s.host.mem.writeList s.host.pc.toNat [firstByte w, secondByte w] }

end Sys2Proof.Machine
end

