-- ==== Sys2Proof/Machine/Step.lean ====
section
/-! DEFINITION. One step of the machine: one atomic operation of the total order (spec 20_memory.md R31, R34). -/

namespace Sys2Proof.Machine

/-- The agent at the head of the schedule moves; when the schedule is empty the host does. -/
def step (s : State) : Host.Outcome State Fault Refusal :=
  match s.schedule with
  | [] => runAlone s
  | t :: rest => takeTurn t { s with schedule := rest }

/-- `s` with a table-numbered word stored where the host fetches next (bit 0 the least significant bit; the bits from `nbits`
up are 0; the byte order is R28's). -/
def State.withFetchWord (s : State) (nbits w : Nat) : State :=
  s.readyToFetch.storeWordAtPc (BitVec.ofNat 16 (w % 2 ^ nbits))

end Sys2Proof.Machine
end

