-- ==== Sys2Proof/Safety.lean ====
section
/-! DEFINITION. What a legal state and a safe run are, in the terms the claims use. -/

namespace Sys2Proof.Machine

/-- `fault_cause` "is `None` exactly when `halted = 0`" (R15). -/
abbrev Block.statusAgrees (b : Block) : Prop := b.faultCause = .none ↔ b.halted = false

/-- The invariant of the machine: the fault status agrees with itself (R15), host RAM is in canonical form with every address
in 0 to 4095 (R18), and the stack holds at most 32 entries (R85, C6). -/
structure State.Inv (s : State) : Prop where
  status : s.block.statusAgrees
  memory : s.host.mem.wf = true
  stack : s.host.stack.length ≤ stackCapacity

/-- A state in which the host's loop can issue a word: the block is not halted and the loop runs (R73, R89, R98). -/
abbrev State.hostReady (s : State) : Prop := s.block.halted = false ∧ s.host.loop = .running

/-- The next turn is the host's, with `rest` the turns after it: the schedule is empty or names the host first (R35). -/
abbrev State.hostMovesThen (s : State) (rest : List Turn) : Prop :=
  (s.schedule = [] ∧ rest = []) ∨ s.schedule = .host :: rest

/-- Who moves next (R35). -/
def State.mover (s : State) : Turn := s.schedule.headD .host

/-- The next step is the host issuing the command `i` to the block: it is the host's turn, its loop runs, and the word at the
program counter is a word of `i` (R73). -/
def State.issues (s : State) (i : Instr) : Prop :=
  s.mover = .host ∧ s.hostReady ∧ ∃ w, s.host.fetchWord = some w ∧ decode w = some i

/-- The N bytes at I, I+1, … (R77) can be read: "With N = 0 nothing is read and no address is checked". -/
abbrev HostState.spriteReadable (h : HostState) (n : Fin 16) : Prop := n.val = 0 ∨ h.i.toNat + n.val ≤ 4096

/-- The N bytes that host RAM holds at I, I+1, … (R27, R38). -/
def HostState.spriteInRam (h : HostState) (n : Fin 16) : List Byte := (List.range n.val).map (fun r => h.mem.read (h.i.toNat + r))

/-- The footprint of `DXYN` lies inside the grid: "iff `x0 <= 56` and `y0 + n <= 32`" after the reduction of the origin (R51,
R52); with n = 0 it is empty. -/
abbrev HostState.drawFits (h : HostState) (x y : Reg) (n : Fin 16) : Prop :=
  n.val = 0 ∨ ((h.readV x).toNat % 64 ≤ 56 ∧ (h.readV y).toNat % 32 + n.val ≤ 32)

/-- The cell (cx, cy) lies under a set bit of a sprite whose origin is (x0, y0): the bit at column offset c of row r lies at
(x0 + c, y0 + r) (R51). -/
def SpriteBitSet (msbFirst : Bool) (x0 y0 : Nat) (rows : List Byte) (cx cy : Nat) : Prop :=
  ∃ r c, r < rows.length ∧ c < 8 ∧ x0 + c = cx ∧ y0 + r = cy ∧ spriteBit msbFirst (rows.getD r 0) c = true

/-- The register a command's result goes to, if it has one (R44: VF for a draw, VX for GETDT). -/
def commandDestination : Instr → Option Reg
  | .draw _ _ _ => some vf
  | .getDt x => some x
  | .clear | .setDt _ | .setSt _ => none

/-- A state that a fatal fault has ended: the block is halted (R88, R89), or the loop never started because the ROM did not load
("fatal at startup", R84, R85). -/
abbrev State.faulted (s : State) : Prop := s.block.halted = true ∨ s.host.loop = .notStarted

/-- A safe run of `k` steps: it reaches a state, and no fatal fault has ended the machine there. A faulted state "must not" be
treated "as a final state of a successful run" (R88). -/
def RunsSafely (k : Nat) (s : State) : Prop :=
  ∃ t, Host.Core.run Sys2Proof.core k s = .next t ∧ ¬ t.faulted

end Sys2Proof.Machine
end

