-- ==== Sys2Proof/Certificates/Slice0/Obligations.lean ====
section
/-! DEFINITION. The statements about the machine, for the provers. Each docstring names the rule or decision of spec/ it rests
on; where a clause rests on a decision of the spec or on a choice of the model, it says so. -/

open Sys2Proof Sys2Proof.Machine

/-! ### Encoding -/

/-- Words written out from the patterns of R43 and the vectors of 95_test_vectors.md section 2.1 decode to what they stand for. -/
def Obligations.CommandWordsDecodeAsWritten : Prop :=
  decode 0x00E0 = some .clear ∧ decode 0xDAB4 = some (.draw 10 11 4) ∧ decode 0xFF07 = some (.getDt 15) ∧
  decode 0xF115 = some (.setDt 1) ∧ decode 0xFA18 = some (.setSt 10) ∧
  decode 0x00E1 = none ∧ decode 0x01E0 = none ∧ decode 0x10E0 = none ∧ decode 0xF119 = none ∧ decode 0x00EE = none

/-- Decoding the word of any instruction, and its two bytes followed by anything, gives the instruction back: no operand bit is
dropped (R41 to R43, R46, R28). -/
def Obligations.DecodeOfEncodeGivesTheInstruction : Prop :=
  ∀ (i : Instr) (rest : List Byte), decode (encode i) = some i ∧ decodeBytes (encodeBytes i ++ rest) = some (i, rest)

/-- A word that decodes is the one word of its instruction. -/
def Obligations.EncodeOfDecodeGivesTheWord : Prop :=
  ∀ (w : Word) (i : Instr), decode w = some i → encode i = w

/-- R43: "A word `w` selects an operation iff `(w AND mask) = match`", for each of the five patterns, with its free fields, and
the five patterns are disjoint. -/
def Obligations.OpcodeMapSelectsTheOperation : Prop :=
  (∀ w : Word,
    (decode w = some .clear ↔ w &&& 0xFFFF = 0x00E0) ∧
    (decode w = some (.draw (fieldX w) (fieldY w) (fieldN w)) ↔ w &&& 0xF000 = 0xD000) ∧
    (decode w = some (.getDt (fieldX w)) ↔ w &&& 0xF0FF = 0xF007) ∧
    (decode w = some (.setDt (fieldX w)) ↔ w &&& 0xF0FF = 0xF015) ∧
    (decode w = some (.setSt (fieldX w)) ↔ w &&& 0xF0FF = 0xF018) ∧
    (decode w = none ↔ ∀ r ∈ opcodeMap, w &&& r.mask ≠ r.value) ∧
    (∀ i, decode w = some i → i = .clear ∨ i = .draw (fieldX w) (fieldY w) (fieldN w) ∨ i = .getDt (fieldX w) ∨
      i = .setDt (fieldX w) ∨ i = .setSt (fieldX w))) ∧
  (∀ w : Word, ∀ r ∈ opcodeMap, ∀ r' ∈ opcodeMap, w &&& r.mask = r.value → w &&& r'.mask = r'.value → r = r')

/-- R41: the fields of every word by bit position: op 15 to 12, X 11 to 8, Y 7 to 4, N 3 to 0, NN 7 to 0, NNN 11 to 0. -/
def Obligations.FieldsSplitTheWord : Prop :=
  ∀ w : Word,
    w.toNat = (nibble w 12).val * 4096 + (fieldX w).val * 256 + (fieldY w).val * 16 + (fieldN w).val ∧
    (fieldNN w).toNat = (fieldY w).val * 16 + (fieldN w).val ∧
    (fieldNNN w).toNat = (fieldX w).val * 256 + (fieldY w).val * 16 + (fieldN w).val

/-! ### The host step -/

/-- R28: "word = {memory[PC], memory[PC+1]}, the byte at the lower address in bits 15 to 8"; no word outside 0 to 4095 (R73). -/
def Obligations.FetchIsBigEndian : Prop :=
  ∀ h : HostState,
    (h.pc.toNat + 1 ≤ 4095 → ∃ w, h.fetchWord = some w ∧
      w.toNat = (h.mem.read h.pc.toNat).toNat * 256 + (h.mem.read (h.pc.toNat + 1)).toNat) ∧
    (4095 < h.pc.toNat + 1 → h.fetchWord = none)

/-- R73, one host step: the fetch check with its fatal fault (the program counter not yet advanced), the word, the advance by 2
before anything else, then the block's command or the host's own word. `rest` is what the schedule holds after the host's turn;
a TICK is a turn of its own. -/
def Obligations.StepRunsTheFetchedWord : Prop :=
  ∀ (s : State) (rest : List Turn), s.hostReady → s.hostMovesThen rest →
    (4095 < s.host.pc.toNat + 1 →
      ∃ t, step s = .next t ∧ t.host = { s.host with fault := some .memoryOutOfBounds } ∧ t.schedule = rest) ∧
    (s.host.pc.toNat + 1 ≤ 4095 →
      ∀ w, w = wordOfBytes (s.host.mem.read s.host.pc.toNat) (s.host.mem.read (s.host.pc.toNat + 1)) →
        (∀ i, decode w = some i →
          step s = exec i { s with schedule := rest, host := { s.host with pc := s.host.pc + 2 } }) ∧
        (decode w = none →
          step s = .next (execHostWord w { s with schedule := rest, host := { s.host with pc := s.host.pc + 2 } })))

/-- The block's side of an instruction fetch above 4095: the host's fatal fault asserts the halt input (decision D11 of the
spec), so the block is halted with HostFault and its grid and timers stay. -/
def Obligations.FetchFaultHaltsTheBlock : Prop :=
  ∀ (s : State) (rest : List Turn), s.hostReady → s.hostMovesThen rest → 4095 < s.host.pc.toNat + 1 →
    ∃ t, step s = .next t ∧ t.block = { s.block with halted := true, faultCause := .hostFault }

/-- A word placed from outside (log entry 27): after `withFetchWord` the very next step runs the instruction of the table word,
in every state whose RAM is canonical, halted ones, parked ones and those with turns pending included. -/
def Obligations.WithFetchWordRunsTheWord : Prop :=
  ∀ (s : State) (w : Nat) (i : Instr), s.host.mem.wf = true → decodeTableWord 16 w = some i →
    ∃ t, step (s.withFetchWord 16 w) = exec i t ∧ t.schedule = [] ∧ t.block.halted = false ∧
      t.host.pc = (s.withFetchWord 16 w).host.pc + 2 ∧ t.host.v = s.host.v ∧ t.host.i = s.host.i ∧
      t.block.fb = s.block.fb ∧ t.block.dt = s.block.dt ∧ t.block.st = s.block.st

/-- R74: "None of the five words is a branch, jump, call, return or skip. Each leaves `pc` equal to the address of the word plus
2 … and writes nothing to the host's stack"; the last clause, that the advance never starts from above 4094, is an
inference that the spec marks as derived from R73's fetch check. -/
def Obligations.CommandsAdvancePcByTwo : Prop :=
  ∀ (s : State) (i : Instr), s.issues i →
    ∃ t, step s = .next t ∧ t.host.pc = s.host.pc + 2 ∧ t.host.stack = s.host.stack ∧ s.host.pc.toNat ≤ 4094

/-! ### CLEAR -/

/-- R50 and R75: CLEAR is the word 0x00E0 exactly, clears all 2048 cells, returns nothing, writes nothing else, and two CLEARs
in a row equal one. -/
def Obligations.ClearErasesTheGrid : Prop :=
  (∀ w : Word, decode w = some .clear ↔ w = 0x00E0) ∧
  ∀ s : State, s.block.halted = false →
    ∃ t, exec .clear s = .next t ∧ (∀ x y, x < 64 → y < 32 → t.block.fb.get x y = false) ∧
      t = { s with block := { s.block with fb := t.block.fb } } ∧ exec .clear t = .next t

/-! ### DRAW -/

/-- R51 and R53 inside the grid: "A sprite bit of 1 complements the cell; a sprite bit of 0 leaves the cell as it is". The
origin is (VX mod 64, VY mod 32) sampled before, the rows are the N bytes at I. The bit order is the parameter of D4; the
premises are where a draw raises no fault (R52, R77). -/
def Obligations.DrawXorsTheSprite : Prop :=
  ∀ (s : State) (x y : Reg) (n : Fin 16), s.block.halted = false → s.host.spriteReadable n → s.host.drawFits x y n →
    ∃ t, exec (.draw x y n) s = .next t ∧
      ∀ cx cy, cx < 64 → cy < 32 →
        (SpriteBitSet s.config.spriteMsbFirst ((s.host.readV x).toNat % 64) ((s.host.readV y).toNat % 32)
            (s.host.spriteInRam n) cx cy → t.block.fb.get cx cy = !s.block.fb.get cx cy) ∧
        (¬ SpriteBitSet s.config.spriteMsbFirst ((s.host.readV x).toNat % 64) ((s.host.readV y).toNat % 32)
            (s.host.spriteInRam n) cx cy → t.block.fb.get cx cy = s.block.fb.get cx cy)

/-- R54: "`collision` = 1 iff at least one cell that this DRAW complemented held 1 before this DRAW", as the block returns it
and as the host finds it in VF ("VF = 1 iff any pixel transitioned set→clear"); n = 0 and blank rows give 0. Where the
complemented cells lie rests on the spec's own decisions: the axes D16 (log entry 29), the bit order's parameter D4 (log entry
2), the grid's bound D3 (log entry 5). -/
def Obligations.DrawReportsCollisionInVF : Prop :=
  ∀ (s : State) (x y : Reg) (n : Fin 16), s.block.halted = false → s.host.spriteReadable n → s.host.drawFits x y n →
    ∃ t c, exec (.draw x y n) s = .next t ∧
      s.block.draw s.config.spriteMsbFirst (s.host.readV x) (s.host.readV y) (s.host.spriteInRam n) = (t.block, some c) ∧
      (c = true ↔ ∃ cx cy, SpriteBitSet s.config.spriteMsbFirst ((s.host.readV x).toNat % 64)
        ((s.host.readV y).toNat % 32) (s.host.spriteInRam n) cx cy ∧ s.block.fb.get cx cy = true) ∧
      (t.host.readV vf = 0x01 ↔ c = true)

/-- A completed draw without a collision writes 0x00 to VF, whatever VF held (the value by decision D17 of the spec, its own
choice): "a draw without collision clears a VF left at 1 by an earlier instruction". -/
def Obligations.DrawWithoutCollisionClearsVF : Prop :=
  ∀ (s : State) (x y : Reg) (n : Fin 16), s.block.halted = false → s.host.spriteReadable n → s.host.drawFits x y n →
    (∀ cx cy, SpriteBitSet s.config.spriteMsbFirst ((s.host.readV x).toNat % 64) ((s.host.readV y).toNat % 32)
      (s.host.spriteInRam n) cx cy → s.block.fb.get cx cy = false) →
    ∃ t, exec (.draw x y n) s = .next t ∧ t.host.readV vf = 0x00

/-- What a completed draw leaves alone: both timers, the fault status, every register but VF, `I`, the program counter, the
stack, every byte of host RAM, and everything outside the block and the host (R53, R77, R78). -/
def Obligations.DrawLeavesTheRest : Prop :=
  ∀ (s : State) (x y : Reg) (n : Fin 16), s.block.halted = false → s.host.spriteReadable n → s.host.drawFits x y n →
    ∃ t, exec (.draw x y n) s = .next t ∧
      t.block = { s.block with fb := t.block.fb } ∧ t.host = { s.host with v := t.host.v } ∧
      (∀ r, r ≠ vf → t.host.readV r = s.host.readV r) ∧ (∀ a, t.host.mem.read a = s.host.mem.read a) ∧
      t = { s with block := t.block, host := t.host }

/-- The first column of a sprite row is bit 7 under the parameter's default (D4 of the spec, its own choice; log entry 2): a
one-row draw on a clear grid sets the cell at column offset c iff bit 7−c of `memory[I]` is set. -/
def Obligations.DrawPutsBitSevenAtTheOrigin : Prop :=
  ∀ (s : State) (x y : Reg), s.config.spriteMsbFirst = true → s.block.halted = false → s.block.fb = Grid.clear →
    s.host.spriteReadable 1 → s.host.drawFits x y 1 →
    ∃ t, exec (.draw x y 1) s = .next t ∧
      ∀ c, c < 8 → t.block.fb.get ((s.host.readV x).toNat % 64 + c) ((s.host.readV y).toNat % 32) =
        (s.host.mem.read s.host.i.toNat).getLsbD (7 - c)

/-- A draw whose footprint leaves the grid raises `DisplayOutOfBounds` (decision D3 of the spec): nothing is written but
`halted` and `fault_cause`, and no register. The premise is the negation of R52's bound, with n > 0 and a readable sprite. -/
def Obligations.DrawOutsideTheGridHalts : Prop :=
  ∀ (s : State) (x y : Reg) (n : Fin 16), s.block.halted = false → s.host.spriteReadable n →
    0 < n.val → (56 < (s.host.readV x).toNat % 64 ∨ 32 < (s.host.readV y).toNat % 32 + n.val) →
    exec (.draw x y n) s =
      .next { s with block := { s.block with halted := true, faultCause := .displayOutOfBounds } }

/-- A sprite row above address 4095 is the host's fatal `MemoryOutOfBounds`, whatever the footprint (priority by decision D13 of
the spec; the halt input by D11): no draw, no register written, `fault_cause` HostFault. -/
def Obligations.SpriteFetchFaultComesFirst : Prop :=
  ∀ (s : State) (x y : Reg) (n : Fin 16), s.block.halted = false → 0 < n.val → 4096 < s.host.i.toNat + n.val →
    exec (.draw x y n) s = .next { s with
      block := { s.block with halted := true, faultCause := .hostFault }
      host := { s.host with fault := some .memoryOutOfBounds } }

/-- "drawing an identical sprite twice at the identical (x,y) restores the pre-draw pixel state exactly", and the second
collision is 1 iff some cell under a set bit was clear before the first draw (R55 laws 3 and 4, which the spec marks as
derived). Identical (x,y): the first draw's write of VF must not have changed a coordinate. -/
def Obligations.SameDrawTwiceRestoresTheGrid : Prop :=
  ∀ (s t : State) (x y : Reg) (n : Fin 16), s.block.halted = false → s.host.spriteReadable n → s.host.drawFits x y n →
    exec (.draw x y n) s = .next t → t.host.readV x = s.host.readV x → t.host.readV y = s.host.readV y →
    ∃ u, exec (.draw x y n) t = .next u ∧ u.block.fb = s.block.fb ∧
      (u.host.readV vf = 0x01 ↔ ∃ cx cy, SpriteBitSet s.config.spriteMsbFirst ((s.host.readV x).toNat % 64)
        ((s.host.readV y).toNat % 32) (s.host.spriteInRam n) cx cy ∧ s.block.fb.get cx cy = false)

/-- "Two DRAWs with disjoint sets of complemented cells commute on the grid" (R55 law 5, which the spec marks as derived), said
of the block's own operation on its operand values (R44). -/
def Obligations.DisjointDrawsCommute : Prop :=
  ∀ (msb : Bool) (xa ya xb yb : Byte) (rowsA rowsB : List Byte) (b : Block), b.halted = false →
    footprintInside (xa.toNat % 64) (ya.toNat % 32) rowsA.length = true →
    footprintInside (xb.toNat % 64) (yb.toNat % 32) rowsB.length = true →
    (∀ cx cy, ¬ (SpriteBitSet msb (xa.toNat % 64) (ya.toNat % 32) rowsA cx cy ∧
      SpriteBitSet msb (xb.toNat % 64) (yb.toNat % 32) rowsB cx cy)) →
    ((b.draw msb xa ya rowsA).1.draw msb xb yb rowsB).1 = ((b.draw msb xb yb rowsB).1.draw msb xa ya rowsA).1 ∧
    ((b.draw msb xa ya rowsA).1.draw msb xb yb rowsB).2 = (b.draw msb xb yb rowsB).2

/-! ### The timer commands -/

/-- R60 and R79: the word FX07 for any X; V[X] takes the value of `DT`; the block is unchanged, VF is written only as the data
destination, and "two GETDTs with a TICK between them differ by one when `DT > 0`". -/
def Obligations.GetDtReadsTheDelayTimer : Prop :=
  (∀ (w : Word) (x : Reg), decode w = some (.getDt x) ↔ nibble w 12 = 0xF ∧ fieldNN w = 0x07 ∧ fieldX w = x) ∧
  ∀ (s : State) (x : Reg), s.block.halted = false →
    ∃ t, exec (.getDt x) s = .next t ∧ t.host.readV x = s.block.dt ∧ (∀ r, r ≠ x → t.host.readV r = s.host.readV r) ∧
      t = { s with host := { s.host with v := t.host.v } } ∧
      (0 < s.block.dt.toNat → ∃ u, exec (.getDt x) { t with block := t.block.tick } = .next u ∧
        (u.host.readV x).toNat + 1 = (t.host.readV x).toNat)

/-- R61 with R80's binding: the word FX15 for any X; `DT` takes all 8 bits of V[X]; nothing else changes. -/
def Obligations.SetDtLoadsTheDelayTimer : Prop :=
  (∀ (w : Word) (x : Reg), decode w = some (.setDt x) ↔ nibble w 12 = 0xF ∧ fieldNN w = 0x15 ∧ fieldX w = x) ∧
  ∀ (s : State) (x : Reg), s.block.halted = false →
    exec (.setDt x) s = .next { s with block := { s.block with dt := s.host.readV x } }

/-- R62 with R80's binding: the word FX18 for any X; `ST` takes all 8 bits of V[X], `beep` follows at once; nothing else
changes. -/
def Obligations.SetStLoadsTheSoundTimer : Prop :=
  (∀ (w : Word) (x : Reg), decode w = some (.setSt x) ↔ nibble w 12 = 0xF ∧ fieldNN w = 0x18 ∧ fieldX w = x) ∧
  ∀ (s : State) (x : Reg), s.block.halted = false →
    ∃ t, exec (.setSt x) s = .next t ∧ t = { s with block := { s.block with st := s.host.readV x } } ∧
      (t.block.beep = true ↔ 0 < (s.host.readV x).toNat)

/-! ### The gate, the beep and the timers' isolation -/

/-- One TICK: each timer that is not 0 is decremented by exactly 1, one that is 0 stays 0 (R63; that one event serves both
timers is decision D7), and nothing else of the machine changes but the schedule, whose turn is used up. -/
def Obligations.TickCountsBothTimersDown : Prop :=
  ∀ (s : State) (rest : List Turn), s.block.halted = false → s.schedule = .tick :: rest →
    ∃ t, step s = .next t ∧
      (0 < s.block.dt.toNat → t.block.dt.toNat + 1 = s.block.dt.toNat) ∧ (s.block.dt = 0 → t.block.dt = 0) ∧
      (0 < s.block.st.toNat → t.block.st.toNat + 1 = s.block.st.toNat) ∧ (s.block.st = 0 → t.block.st = 0) ∧
      t = { s with schedule := rest, block := { s.block with dt := t.block.dt, st := t.block.st } }

/-- "After k TICKs with no SETDT between, `DT` = max(DT0 − k, 0), and likewise `ST`" (R64, which the spec marks as derived). -/
def Obligations.TicksReachTheFloorAndStay : Prop :=
  ∀ (k : Nat) (s : State) (rest : List Turn), s.block.halted = false → s.schedule = List.replicate k .tick ++ rest →
    ∃ t, Host.Core.run Sys2Proof.core k s = .next t ∧ t.block.dt.toNat = s.block.dt.toNat - k ∧
      t.block.st.toNat = s.block.st.toNat - k ∧ t.block.fb = s.block.fb ∧ t.host = s.host ∧ t.schedule = rest

/-- R65: `beep` is 1 iff `ST > 0`; it, and the count behind it, changes only as a consequence of SETST, TICK or reset; with
`ST` = v and no further SETST it is 1 for exactly v TICKs. -/
def Obligations.BeepFollowsTheSoundTimer : Prop :=
  (∀ b : Block, b.beep = true ↔ 0 < b.st.toNat) ∧
  (∀ s t : State, step s = .next t → t.block.beep ≠ s.block.beep ∨ t.block.st ≠ s.block.st →
    s.mover = .tick ∨ s.mover = .reset ∨ (∃ rom font, s.mover = .startUp rom font) ∨ ∃ x, s.issues (.setSt x)) ∧
  (∀ (k : Nat) (s : State) (rest : List Turn), s.block.halted = false → s.schedule = List.replicate k .tick ++ rest →
    ∃ t, Host.Core.run Sys2Proof.core k s = .next t ∧ (t.block.beep = true ↔ k < s.block.st.toNat))

/-- R66: no operation returns `ST` to the host. Two machines that differ in `ST` alone stay alike in everything but `ST` over
every step, whoever moves, and stop alike. -/
def Obligations.SoundTimerIsInvisibleToTheHost : Prop :=
  ∀ (s : State) (v : Byte),
    (∀ f, step s = .fault f → step { s with block := { s.block with st := v } } = .fault f) ∧
    (∀ t, step s = .next t → ∃ t', step { s with block := { s.block with st := v } } = .next t' ∧ t'.host = t.host ∧
      t'.block = { t.block with st := t'.block.st } ∧ t' = { t with block := t'.block })

/-- R67: "No command causes a TICK and no TICK causes or delays a command." On the host's turn a timer changes only by its own
load command, to the value loaded, and the turns after it stay as they were: none is added, dropped or moved. On a TICK the
host is untouched and the turns after it stay as they were. -/
def Obligations.TimersMoveOnlyByLoadsAndTicks : Prop :=
  ∀ s t : State, step s = .next t →
    (s.mover = .host → (t.block.dt = s.block.dt ∨ ∃ x, s.issues (.setDt x) ∧ t.block.dt = s.host.readV x) ∧
      (t.block.st = s.block.st ∨ ∃ x, s.issues (.setSt x) ∧ t.block.st = s.host.readV x) ∧
      t.schedule = s.schedule.tail) ∧
    (s.mover = .tick → t.host = s.host ∧ t.schedule = s.schedule.tail)

/-! ### The grid's isolation and read-out -/

/-- The grid is written by CLEAR, DRAW and reset alone (R11's list of writers; its reset value and axes are decisions D6, D16). -/
def Obligations.GridWrittenOnlyByDisplayCommands : Prop :=
  ∀ s t : State, step s = .next t → t.block.fb ≠ s.block.fb →
    s.mover = .reset ∨ (∃ rom font, s.mover = .startUp rom font) ∨ s.issues .clear ∨ ∃ x y n, s.issues (.draw x y n)

/-- "The host never reads the grid back … collision is its only view of the grid" (60_exceptions.md section 2): two machines
that differ in the grid alone have equal hosts after every step, but for VF after a draw, and blocks that differ in the grid at
most; nothing else differs but the presenter's copy after a SNAPSHOT, and they stop alike. -/
def Obligations.GridReachesTheHostOnlyThroughVF : Prop :=
  ∀ (s : State) (g : Grid),
    (∀ f, step s = .fault f → step { s with block := { s.block with fb := g } } = .fault f) ∧
    (∀ t, step s = .next t → ∃ t', step { s with block := { s.block with fb := g } } = .next t' ∧
      (∀ r, r ≠ vf → t'.host.readV r = t.host.readV r) ∧ t'.host = { t.host with v := t'.host.v } ∧
      (t'.host = t.host ∨ ∃ x y n, s.issues (.draw x y n)) ∧
      t'.block = { t.block with fb := t'.block.fb } ∧
      t' = { t with block := t'.block, host := t'.host, presenter := t'.presenter } ∧
      (t'.presenter = t.presenter ∨ s.mover = .snapshot))

/-- R56: SNAPSHOT copies all 2048 cells, in every state, `halted = 1` included, and writes nothing; the copy "is not kept
fresh": no turn but another SNAPSHOT or a start-up changes it. -/
def Obligations.SnapshotCopiesTheGrid : Prop :=
  (∀ (s : State) (rest : List Turn), s.schedule = .snapshot :: rest →
    ∃ t g, step s = .next t ∧ t.presenter = some g ∧ (∀ x y, x < 64 → y < 32 → g.get x y = s.block.fb.get x y) ∧
      t = { s with schedule := rest, presenter := t.presenter }) ∧
  (∀ s t : State, step s = .next t → s.mover ≠ .snapshot → (∀ rom font, s.mover ≠ .startUp rom font) →
    t.presenter = s.presenter)

/-- "after those three commands the block's state is determined" (R103, which the spec marks as derived): `00E0`, `FX15` and
`FX18` leave a block whose grid and timers do not depend on what they held before. -/
def Obligations.SetupCommandsFixTheBlock : Prop :=
  ∀ (s : State) (x y : Reg), s.block.halted = false →
    ∃ t u w, exec .clear s = .next t ∧ exec (.setDt x) t = .next u ∧ exec (.setSt y) u = .next w ∧
      w.block = ⟨Grid.clear, s.host.readV x, s.host.readV y, false, s.block.faultCause⟩ ∧ w.host = s.host

/-! ### Reset, faults, the halted state -/

/-- The block right after reset (values by decisions D5 and D6 of the spec), with `beep` 0 and RAM zero-filled; the program
counter, the registers and `I` are the model's choice (log entry 4). -/
def Obligations.ResetLeavesTheBlockInitial : Prop :=
  (∀ x y, x < 64 → y < 32 → State.reset.block.fb.get x y = false) ∧ State.reset.block.dt = 0 ∧ State.reset.block.st = 0 ∧
  State.reset.block.halted = false ∧ State.reset.block.faultCause = .none ∧ State.reset.block.beep = false ∧
  (∀ a, State.reset.host.mem.read a = 0) ∧ (∀ r, State.reset.host.readV r = 0) ∧ State.reset.host.pc = 0x200

/-- RESET as an event (R100): accepted in every state, it gives the block its reset values (the parameters of D5 and D6; with
their defaults all zero) and changes nothing outside the block (log entry 8). -/
def Obligations.ResetTurnClearsTheBlock : Prop :=
  ∀ (s : State) (rest : List Turn), s.schedule = .reset :: rest →
    ∃ t, step s = .next t ∧ t.block = ⟨s.config.resetGrid, s.config.resetDT, s.config.resetST, false, .none⟩ ∧
      t = { s with schedule := rest, block := t.block } ∧
      (s.config = Config.default → t.block.dt = 0 ∧ t.block.st = 0 ∧ t.block.beep = false ∧
        ∀ x y, x < 64 → y < 32 → t.block.fb.get x y = false)

/-- The halt input (decision D11 of the spec): from `halted = 0` it sets `halted` and HostFault, from `halted = 1` it has no
effect and the first cause is kept; grid and timers are unchanged. -/
def Obligations.HaltInputKeepsTheFirstCause : Prop :=
  ∀ (s : State) (rest : List Turn), s.schedule = .haltInput :: rest →
    (s.block.halted = false → step s = .next { s with
      schedule := rest, block := { s.block with halted := true, faultCause := .hostFault } }) ∧
    (s.block.halted = true → step s = .next { s with schedule := rest })

/-- A halted block accepts no command and no gate event (decision D11 of the spec): nothing changes. -/
def Obligations.HaltedBlockIgnoresCommands : Prop :=
  ∀ s : State, s.block.halted = true → (∀ i, exec i s = .next s) ∧ s.block.tick = s.block

/-- The halted state (decision D11 of the spec): whatever turn but RESET and start-up comes, `FB`, `DT`, `ST` and the fault
status keep their values and the host's registers, memory, stack and program counter stay; with no turn left the run stops with
the fault `halted`, never with a next state (R88). -/
def Obligations.HaltedStateIsFrozen : Prop :=
  ∀ s : State, s.block.halted = true →
    (s.schedule = [] → step s = .fault .halted) ∧
    (∀ (turn : Turn) (rest : List Turn), s.schedule = turn :: rest → turn ≠ .reset →
      (∀ rom font, turn ≠ .startUp rom font) →
      ∃ t, step s = .next t ∧ t.block = s.block ∧ t.host = { s.host with keys := t.host.keys } ∧ t.schedule = rest)

/-- "Leaving the halted state is by RESET only" (60_exceptions.md section 1, decision D11 of the spec), and a loop that never
started stays so (ROM-load failure): over any run on a schedule without a RESET or a start-up both faulted conditions stay. -/
def Obligations.OnlyResetLeavesTheHaltedState : Prop :=
  ∀ (k : Nat) (s t : State), (∀ turn ∈ s.schedule, turn ≠ .reset ∧ ∀ rom font, turn ≠ .startUp rom font) →
    Host.Core.run Sys2Proof.core k s = .next t →
    (s.block.halted = true → t.block.halted = true) ∧ (s.host.loop = .notStarted → t.host.loop = .notStarted)

/-- R99: "every accepted operation either completes in full or raises the fatal `DisplayOutOfBounds` with no effect on `FB`,
`DT`, `ST`"; the only other end is the host's own fault before a draw is issued; a `DecodeFallthrough` changes nothing in the
block and leaves registers, memory and stack as they are. -/
def Obligations.CommandsCompleteOrHaltWithoutEffect : Prop :=
  (∀ (i : Instr) (s : State), s.block.halted = false →
    ∃ t, exec i s = .next t ∧
      (t.block.halted = false ∧ t.host.fault = s.host.fault ∨
       t.block = { s.block with halted := true, faultCause := .displayOutOfBounds } ∧ t.host = s.host ∨
       t.block.fb = s.block.fb ∧ t.block.dt = s.block.dt ∧ t.block.st = s.block.st ∧ t.block.halted = true ∧
        t.host = { s.host with fault := some .memoryOutOfBounds })) ∧
  (∀ (w : Word) (s : State), decodeHost w = none →
    execHostWord w s = { s with host := { s.host with fallthroughs := s.host.fallthroughs + 1 } })

/-- A word that matches none of the five patterns leaves the block untouched (decision D9 of the spec), but for the halt input
when the host takes one of its own fatal faults on it (D11). That the host runs these words, and that on such a fault its
registers and RAM stay as they were, are the model's choice (log entries 11 and 15). -/
def Obligations.HostWordsLeaveTheBlockAlone : Prop :=
  ∀ (w : Word) (s : State), s.block.halted = false →
    (execHostWord w s).presenter = s.presenter ∧ (execHostWord w s).schedule = s.schedule ∧
    (execHostWord w s).config = s.config ∧
    ((execHostWord w s).block = s.block ∧ (execHostWord w s).host.fault = s.host.fault ∨
     (execHostWord w s).block = { s.block with halted := true, faultCause := .hostFault } ∧
      ∃ f, (execHostWord w s).host = { s.host with fault := some f })

/-- What the five commands leave alone in the host, whatever they end in: every register but the destination, `I`, the program
counter, the stack, the loop, the keys, the counter, and every byte of RAM (R18: "The block never writes host RAM"). -/
def Obligations.CommandsFrameTheHost : Prop :=
  ∀ (i : Instr) (s t : State), exec i s = .next t →
    (∀ r, some r ≠ commandDestination i → t.host.readV r = s.host.readV r) ∧ (∀ a, t.host.mem.read a = s.host.mem.read a) ∧
    t.host = { s.host with v := t.host.v, fault := t.host.fault } ∧ t = { s with block := t.block, host := t.host }

/-! ### Invariants -/

/-- Every step keeps the invariant: `fault_cause` is None exactly when `halted = 0` (R15), host RAM stays canonical and inside 0
to 4095 (R18), the stack holds at most 32 entries (R85, C6). -/
def Obligations.StepKeepsTheInvariant : Prop :=
  ∀ s t : State, s.Inv → step s = .next t → t.Inv

/-- The reset state meets the invariant. -/
def Obligations.ResetMeetsTheInvariant : Prop := State.reset.Inv

/-- No turn writes a parameter (R23: parameters are not state). -/
def Obligations.StepNeverWritesTheParameters : Prop :=
  ∀ s t : State, step s = .next t → t.config = s.config

/-! ### Order, start-up, key wait -/

/-- A command presented with a TICK at the same instant: "the command is ordered first" (decision D8 of the spec). For every
command `t` is what the command alone gives, and the TICK then acts on `t`; a TICK or SNAPSHOT presented with a FAULTING command
is ordered after it and "sees the halted state" (decision D13). That a SNAPSHOT presented with a command that completes also
comes after it is the model's own choice (log entry 24). So SETDT(v) and SETST(v) leave v − 1, or 0, and GETDT returns the value
before the decrement. -/
def Obligations.CommandGoesBeforeACoincidentTick : Prop :=
  ∀ (s : State) (i : Instr), s.schedule = [] → s.issues i →
    ∃ t, step s = .next t ∧
      Host.Core.run Sys2Proof.core 2 (s.present ⟨true, true, false⟩) = .next { t with block := t.block.tick } ∧
      Host.Core.run Sys2Proof.core 2 (s.present ⟨true, false, true⟩) = .next { t with presenter := some t.block.fb } ∧
      (t.block.halted = true → t.block.tick = t.block ∧ t.block.dt = s.block.dt ∧ t.block.st = s.block.st) ∧
      (∀ x, i = .setDt x → t.block.tick.dt.toNat = (s.host.readV x).toNat - 1) ∧
      (∀ x, i = .setSt x → t.block.tick.st.toNat = (s.host.readV x).toNat - 1) ∧
      (∀ x, i = .getDt x → t.host.readV x = s.block.dt ∧ t.block.tick.dt.toNat = s.block.dt.toNat - 1)

/-- Start-up with a ROM that fits (70_reset_and_hazards.md R101, R102): the block is reset; RAM is zero but for the ROM from
0x200 and the font at its base, the font last; the stack is empty and the loop runs. The register and program counter values
are the model's choice (log entries 4 and 9). -/
def Obligations.StartUpLoadsRomAndFont : Prop :=
  ∀ (s : State) (rom : List Byte) (font : Vector Byte 80) (rest : List Turn),
    s.schedule = .startUp rom font :: rest → rom.length ≤ 4096 - 0x200 →
    ∃ t, step s = .next t ∧ t.block = Block.afterReset s.config ∧ t.host.stack = [] ∧ t.host.loop = .running ∧
      t.host.pc = 0x200 ∧
      (∀ a, a < 4096 → t.host.mem.read a =
        if s.config.fontBase.val ≤ a ∧ a < s.config.fontBase.val + 80 then font.toList.getD (a - s.config.fontBase.val) 0
        else if 0x200 ≤ a ∧ a < 0x200 + rom.length then rom.getD (a - 0x200) 0 else 0)

/-- ROM-load failure (60_exceptions.md R85): a ROM above the length bound is "fatal at startup, surfaced before the loop
starts": the block is in its reset state, the failure is named, and the host's turn issues nothing. -/
def Obligations.RomLoadFailureStartsNothing : Prop :=
  ∀ (s : State) (rom : List Byte) (font : Vector Byte 80), s.schedule = [.startUp rom font] → 4096 - 0x200 < rom.length →
    ∃ t, step s = .next t ∧ t.block = Block.afterReset s.config ∧ t.host.fault = some .romLoadFailure ∧
      step t = .fault .romLoadFailure

/-- The key wait idles the command stream only (60_exceptions.md R98, 41_timer_ops.md R70): the parked host's turn changes
nothing, a TICK is accepted meanwhile, and a key-down edge stores the key's nibble and ends the wait with the block unchanged
(R49 row FX0A, outside the spec's rules; log entries 11 and 17). -/
def Obligations.KeyWaitIdlesTheHostOnly : Prop :=
  ∀ (s : State) (x : Reg), s.block.halted = false → s.host.loop = .parked x →
    (s.schedule = [] → step s = .next s) ∧
    (∀ rest, s.schedule = .host :: rest → step s = .next { s with schedule := rest }) ∧
    (∀ rest, s.schedule = .tick :: rest → step s = .next { s with schedule := rest, block := s.block.tick }) ∧
    (∀ k rest, s.schedule = .keyDown k :: rest → s.host.keys[k.val] = false →
      ∃ t, step s = .next t ∧ t.block = s.block ∧ t.host.loop = .running ∧ t.host.readV x = BitVec.ofNat 8 k.val ∧
        ∀ r, r ≠ x → t.host.readV r = s.host.readV r)

/-! ### Safe runs -/

/-- A faulted state is never the end of a safe run (60_exceptions.md section 1; the halted bit by decision D11 of the spec): a
safe run ends where the machine goes on; a run that reaches a state and is not safe stops there once no other agent's turn is
left; and a start-up with a ROM above the length bound is not safe. -/
def Obligations.SafeRunsEndWhereTheMachineGoesOn : Prop :=
  (∀ (k : Nat) (s : State), RunsSafely k s →
    ∃ t u, Host.Core.run Sys2Proof.core k s = .next t ∧ t.block.halted = false ∧ t.host.loop ≠ .notStarted ∧
      step t = .next u) ∧
  (∀ (k : Nat) (s t : State), Host.Core.run Sys2Proof.core k s = .next t → ¬ RunsSafely k s → t.schedule = [] →
    ∃ f, step t = .fault f) ∧
  (∀ (s : State) (rom : List Byte) (font : Vector Byte 80) (rest : List Turn),
    s.schedule = .startUp rom font :: rest → 4096 - 0x200 < rom.length → ¬ RunsSafely 1 s)
end

