-- ==== Sys2Proof/Laws/Decode.lean ====
section
/-! SUPPORT. The fields of a word and the rows of the opcode map as arithmetic on the word's value. -/

namespace Sys2Proof

@[simp] theorem nibble_val (w : Word) (lo : Nat) : (nibble w lo).val = w.toNat / 2 ^ lo % 16 := rfl

theorem fieldNN_toNat (w : Word) : (fieldNN w).toNat = w.toNat % 256 := by
  simp [fieldNN, BitVec.toNat_setWidth]

/-- Masking the low `k` bits keeps the remainder. -/
theorem and_low_toNat (w : Word) (k : Nat) (hk : k ≤ 16) : (w &&& BitVec.ofNat 16 (2 ^ k - 1)).toNat = w.toNat % 2 ^ k := by
  have h1 : 2 ^ k ≤ 2 ^ 16 := Nat.pow_le_pow_right (by decide) hk
  have h2 : 0 < 2 ^ k := Nat.two_pow_pos k
  rw [BitVec.toNat_and, BitVec.toNat_ofNat, Nat.mod_eq_of_lt (by omega), Nat.and_two_pow_sub_one_eq_mod]

theorem fieldNNN_toNat (w : Word) : (fieldNNN w).toNat = w.toNat % 4096 := and_low_toNat w 12 (by decide)

/-- Masking away the low `k` bits keeps the quotient. -/
theorem and_high_toNat (w : Word) (k : Nat) (hk : k ≤ 16) :
    (w &&& BitVec.ofNat 16 (2 ^ 16 - 2 ^ k)).toNat = w.toNat / 2 ^ k * 2 ^ k := by
  have hmask : BitVec.ofNat 16 (2 ^ 16 - 2 ^ k) = ~~~ BitVec.ofNat 16 (2 ^ k - 1) := by
    have h1 : 2 ^ k ≤ 2 ^ 16 := Nat.pow_le_pow_right (by decide) hk
    have h2 : 0 < 2 ^ k := Nat.two_pow_pos k
    apply BitVec.eq_of_toNat_eq
    rw [BitVec.toNat_not, BitVec.toNat_ofNat, BitVec.toNat_ofNat, Nat.mod_eq_of_lt (by omega), Nat.mod_eq_of_lt (by omega)]
    omega
  rw [hmask]
  apply Nat.eq_of_testBit_eq
  intro i
  rw [Nat.testBit_mul_two_pow, Nat.testBit_div_two_pow, BitVec.testBit_toNat,
    BitVec.getLsbD_and, BitVec.getLsbD_not, BitVec.getLsbD_ofNat, Nat.testBit_two_pow_sub_one]
  by_cases h : i < 16
  · by_cases h' : i < k
    · simp [h, h', BitVec.testBit_toNat]
    · simp [h, h', Nat.le_of_not_lt h', BitVec.testBit_toNat, Nat.sub_add_cancel (Nat.le_of_not_lt h')]
  · have : w.getLsbD i = false := BitVec.getLsbD_of_ge w i (by omega)
    by_cases h' : k ≤ i
    · simp [this, h, h', BitVec.testBit_toNat, Nat.sub_add_cancel h']
    · simp [this, h, h', BitVec.testBit_toNat]

/-- The mask 0xF0FF keeps the opcode nibble and the low byte. -/
theorem and_F0FF_toNat (w : Word) : (w &&& 0xF0FF).toNat = w.toNat / 4096 * 4096 + w.toNat % 256 := by
  have split_mask : w &&& 0xF0FF = (w &&& 0xF000) ||| (w &&& 0x00FF) := by
    rw [← BitVec.and_or_distrib_left]; rfl
  have hi : (w &&& 0xF000).toNat = w.toNat / 4096 * 4096 := and_high_toNat w 12 (by decide)
  have lo : (w &&& 0x00FF).toNat = w.toNat % 256 := and_low_toNat w 8 (by decide)
  rw [split_mask, BitVec.toNat_or, hi, lo, Nat.mul_comm, show 4096 = 2 ^ 12 from rfl]
  exact (Nat.two_pow_add_eq_or_of_lt (by omega) _).symm

/-! ### The rows of the opcode map (R43) as arithmetic -/

theorem clearRow_selects (w : Word) : clearRow.selects w = true ↔ w.toNat = 0x00E0 := by
  have : w &&& 0xFFFF = w := BitVec.and_allOnes
  simp only [OpcodeRow.selects, clearRow, this, beq_iff_eq, ← BitVec.toNat_inj]
  rfl

theorem drawRow_selects (w : Word) : drawRow.selects w = true ↔ w.toNat / 4096 = 0xD := by
  have : (w &&& 0xF000).toNat = w.toNat / 4096 * 4096 := and_high_toNat w 12 (by decide)
  simp only [OpcodeRow.selects, drawRow, beq_iff_eq, ← BitVec.toNat_inj, this]
  change _ = 0xD000 ↔ _
  omega

/-- The three `F` rows: the opcode nibble is 0xF and the low byte is the row's. -/
theorem timerRow_selects (w : Word) (low : Nat) (hlow : low < 256) :
    (w &&& 0xF0FF = BitVec.ofNat 16 (0xF000 + low)) ↔ w.toNat / 4096 = 0xF ∧ w.toNat % 256 = low := by
  rw [← BitVec.toNat_inj, and_F0FF_toNat, BitVec.toNat_ofNat, Nat.mod_eq_of_lt (a := 0xF000 + low) (by omega)]
  omega

theorem getDtRow_selects (w : Word) : getDtRow.selects w = true ↔ w.toNat / 4096 = 0xF ∧ w.toNat % 256 = 0x07 := by
  rw [OpcodeRow.selects, getDtRow, beq_iff_eq]
  exact timerRow_selects w 0x07 (by decide)

theorem setDtRow_selects (w : Word) : setDtRow.selects w = true ↔ w.toNat / 4096 = 0xF ∧ w.toNat % 256 = 0x15 := by
  rw [OpcodeRow.selects, setDtRow, beq_iff_eq]
  exact timerRow_selects w 0x15 (by decide)

theorem setStRow_selects (w : Word) : setStRow.selects w = true ↔ w.toNat / 4096 = 0xF ∧ w.toNat % 256 = 0x18 := by
  rw [OpcodeRow.selects, setStRow, beq_iff_eq]
  exact timerRow_selects w 0x18 (by decide)

/-- The decoder as arithmetic on the word's value: the one spec lemma of `decode`. -/
theorem decode_eq (w : Word) : decode w =
    if w.toNat = 0x00E0 then some .clear
    else if w.toNat / 4096 = 0xD then some (.draw (fieldX w) (fieldY w) (fieldN w))
    else if w.toNat / 4096 = 0xF ∧ w.toNat % 256 = 0x07 then some (.getDt (fieldX w))
    else if w.toNat / 4096 = 0xF ∧ w.toNat % 256 = 0x15 then some (.setDt (fieldX w))
    else if w.toNat / 4096 = 0xF ∧ w.toNat % 256 = 0x18 then some (.setSt (fieldX w))
    else none := by
  simp only [decode, clearRow_selects, drawRow_selects, getDtRow_selects, setDtRow_selects, setStRow_selects]

theorem encode_draw_toNat (x y : Reg) (n : Fin 16) :
    (encode (.draw x y n)).toNat = 0xD000 + x.val * 0x100 + y.val * 0x10 + n.val := by
  simp only [encode, BitVec.toNat_ofNat]; omega

theorem encode_getDt_toNat (x : Reg) : (encode (.getDt x)).toNat = 0xF007 + x.val * 0x100 := by
  simp only [encode, BitVec.toNat_ofNat]; omega

theorem encode_setDt_toNat (x : Reg) : (encode (.setDt x)).toNat = 0xF015 + x.val * 0x100 := by
  simp only [encode, BitVec.toNat_ofNat]; omega

theorem encode_setSt_toNat (x : Reg) : (encode (.setSt x)).toNat = 0xF018 + x.val * 0x100 := by
  simp only [encode, BitVec.toNat_ofNat]; omega

theorem wordOfBytes_toNat (a b : Byte) : (wordOfBytes a b).toNat = a.toNat * 256 + b.toNat := by
  simp only [wordOfBytes, BitVec.toNat_ofNat]; omega

/-- The two bytes of a word are the word (R28). -/
theorem wordOfBytes_bytes (w : Word) : wordOfBytes (firstByte w) (secondByte w) = w := by
  apply BitVec.eq_of_toNat_eq
  rw [wordOfBytes_toNat]
  simp only [firstByte, secondByte, BitVec.toNat_ofNat]
  omega

end Sys2Proof
end

