-- ==== Sys2Proof/Laws/Grid.lean ====
section
/-! SUPPORT. The frame buffer: reading after writing a cell, the cleared grid, and that a grid is the sum of its cells. -/

namespace Sys2Proof.Machine

@[simp] theorem get_clear (x y : Nat) : Grid.clear.get x y = false := by
  unfold Grid.get Grid.clear
  split <;> [split; skip] <;> simp

/-- A cell reads back what was written to it, every other cell what it held; a write to no cell does nothing. -/
theorem get_set (g : Grid) (x y : Nat) (b : Bool) (x' y' : Nat) :
    (g.set x y b).get x' y' = if x' = x ∧ y' = y ∧ x < 64 ∧ y < 32 then b else g.get x' y' := by
  by_cases hx : x < 64
  · by_cases hy : y < 32
    · by_cases hx' : x' < 64
      · by_cases hy' : y' < 32
        · simp only [Grid.get, Grid.set, dif_pos hx, dif_pos hy, dif_pos hx', dif_pos hy']
          by_cases ex : x' = x
          · subst ex
            by_cases ey : y' = y
            · subst ey; simp [hx, hy]
            · simp [ey, Ne.symm ey]
          · simp [ex, Ne.symm ex]
        · rw [if_neg (by omega)]; simp [Grid.get, hy']
      · rw [if_neg (by omega)]; simp [Grid.get, hx']
    · rw [if_neg (by omega)]; simp [Grid.set, hy]
  · rw [if_neg (by omega)]; simp [Grid.set, hx]

/-- Two grids with equal cells are equal. -/
theorem grid_ext {g g' : Grid} (h : ∀ x y, x < 64 → y < 32 → g.get x y = g'.get x y) : g = g' := by
  refine Vector.ext fun x hx => Vector.ext fun y hy => ?_
  have := h x y hx hy
  simpa only [Grid.get, dif_pos hx, dif_pos hy] using this

end Sys2Proof.Machine
end

