-- ==== Sys2Proof/Laws/Memory.lean ====
section
/-! SUPPORT. Host RAM: reading after writing, and that every memory operation keeps the canonical form. -/

namespace Sys2Proof.Machine

/-- Every key of a canonical list that starts after `k` is above `k`, so reading at or below `k` gives the unlisted value. -/
theorem read_of_all_above {m : Memory} {k a : Nat} (h : m.all (fun c => decide (k < c.1)) = true) (ha : a ≤ k) : m.read a = 0 := by
  induction m with
  | nil => rfl
  | cons c rest ih =>
    simp only [List.all_cons, Bool.and_eq_true, decide_eq_true_eq] at h
    simp only [Memory.read]
    rw [if_neg (by omega)]
    exact ih h.2

theorem wf_cons {k : Nat} {v : Byte} {rest : Memory} :
    Memory.wf ((k, v) :: rest) = true ↔
      k < memSize ∧ v ≠ 0 ∧ rest.all (fun c => decide (k < c.1)) = true ∧ Memory.wf rest = true := by
  simp only [Memory.wf, Bool.and_eq_true, decide_eq_true_eq, and_assoc]

/-- The keys of a written list are above every bound that the list and the address are above. -/
theorem all_above_write {m : Memory} {k a : Nat} {b : Byte} (h : m.all (fun c => decide (k < c.1)) = true) (ha : k < a) :
    (m.write a b).all (fun c => decide (k < c.1)) = true := by
  induction m with
  | nil =>
    simp only [Memory.write]
    split
    · rfl
    · simpa using ha
  | cons c rest ih =>
    obtain ⟨ck, cv⟩ := c
    have hc : k < ck ∧ rest.all (fun c => decide (k < c.1)) = true := by
      simpa only [List.all_cons, Bool.and_eq_true, decide_eq_true_eq] using h
    simp only [Memory.write]
    split <;> split
    · exact h
    · simpa only [List.all_cons, Bool.and_eq_true, decide_eq_true_eq] using ⟨ha, hc⟩
    · split
      · exact hc.2
      · simpa only [List.all_cons, Bool.and_eq_true, decide_eq_true_eq] using hc
    · simpa only [List.all_cons, Bool.and_eq_true, decide_eq_true_eq] using ⟨hc.1, ih hc.2⟩

theorem all_above_mono {m : Memory} {j k : Nat} (hjk : j ≤ k) (h : m.all (fun c => decide (k < c.1)) = true) :
    m.all (fun c => decide (j < c.1)) = true := by
  simp only [List.all_eq_true, decide_eq_true_eq] at *
  exact fun c hc => Nat.lt_of_le_of_lt hjk (h c hc)

/-- Writing one byte inside RAM keeps the canonical form. -/
theorem write_wf {m : Memory} {a : Nat} {b : Byte} (h : m.wf = true) (ha : a < memSize) : (m.write a b).wf = true := by
  induction m with
  | nil =>
    simp only [Memory.write]
    split
    · rfl
    · next hb => exact wf_cons.mpr ⟨ha, hb, rfl, rfl⟩
  | cons c rest ih =>
    obtain ⟨k, v⟩ := c
    obtain ⟨hk, hv, hall, hrest⟩ := wf_cons.mp h
    simp only [Memory.write]
    split
    · next hak =>
      split
      · exact h
      · next hb =>
        refine wf_cons.mpr ⟨ha, hb, ?_, h⟩
        simp only [List.all_cons, Bool.and_eq_true, decide_eq_true_eq]
        exact ⟨hak, all_above_mono (Nat.le_of_lt hak) hall⟩
    · split
      · split
        · exact hrest
        · next hb => exact wf_cons.mpr ⟨hk, hb, hall, hrest⟩
      · exact wf_cons.mpr ⟨hk, hv, all_above_write hall (by omega), ih hrest⟩

/-- Reading after writing one byte: the byte at its own address, what was there anywhere else. -/
theorem read_write {m : Memory} (h : m.wf = true) (a : Nat) (b : Byte) (a' : Nat) :
    (m.write a b).read a' = if a' = a then b else m.read a' := by
  induction m with
  | nil =>
    simp only [Memory.write]
    split
    · next hb => simp only [Memory.read, hb, ite_self]
    · exact if_congr eq_comm rfl rfl
  | cons c rest ih =>
    obtain ⟨k, v⟩ := c
    obtain ⟨-, -, hall, hrest⟩ := wf_cons.mp h
    have ih := ih hrest
    have above := @read_of_all_above rest k
    simp only [Memory.write]
    split
    · next hak =>
      split
      · next hb =>
        split
        · next e => rw [e, Memory.read, if_neg (by omega), above hall (by omega), hb]
        · rfl
      · exact if_congr eq_comm rfl rfl
    · split
      · next hka =>
        subst hka
        split
        · next hb =>
          simp only [Memory.read]
          split
          · next e => rw [e, above hall (Nat.le_refl _), hb]
          · next e => rw [if_neg (Ne.symm e)]
        · simp only [Memory.read]
          exact if_ctx_congr eq_comm (fun _ => rfl) (fun e => (if_neg (Ne.symm e)).symm)
      · next hne =>
        simp only [Memory.read]
        split
        · next e => rw [if_neg (by omega)]
        · exact ih

/-- Writing a list of bytes inside RAM keeps the canonical form. -/
theorem writeList_wf {bytes : List Byte} : ∀ {m : Memory} {a : Nat}, m.wf = true → a + bytes.length ≤ memSize →
    (m.writeList a bytes).wf = true := by
  induction bytes with
  | nil => exact fun h _ => h
  | cons b rest ih =>
    intro m a h ha
    simp only [List.length_cons] at ha
    exact ih (write_wf h (by omega)) (by omega)

/-- Reading after writing a list of bytes. -/
theorem read_writeList {bytes : List Byte} : ∀ {m : Memory} {a : Nat}, m.wf = true → a + bytes.length ≤ memSize →
    ∀ a', (m.writeList a bytes).read a' = if a ≤ a' ∧ a' < a + bytes.length then bytes.getD (a' - a) 0 else m.read a' := by
  induction bytes with
  | nil => intro m a _ _ a'; rw [if_neg (by simp only [List.length_nil]; omega)]; rfl
  | cons b rest ih =>
    intro m a h ha a'
    simp only [List.length_cons] at ha ⊢
    rw [Memory.writeList, ih (write_wf h (by omega)) (by omega), read_write h]
    by_cases h1 : a' = a
    · subst h1
      rw [if_neg (by omega), if_pos rfl, if_pos (by omega)]
      simp
    · rw [if_neg h1]
      by_cases h2 : a + 1 ≤ a' ∧ a' < a + 1 + rest.length
      · obtain ⟨d, rfl⟩ : ∃ d, a' = a + 1 + d := ⟨a' - (a + 1), by omega⟩
        rw [if_pos h2, if_pos (by omega), show a + 1 + d - (a + 1) = d by omega, show a + 1 + d - a = d + 1 by omega]
        simp
      · rw [if_neg h2, if_neg (by omega)]

theorem storeBytes_wf {m m' : Memory} {a : Nat} {bytes : List Byte} (h : m.wf = true) (hs : storeBytes m a bytes = some m') :
    m'.wf = true := by
  unfold storeBytes at hs
  split at hs
  · next ha => cases hs; exact writeList_wf h ha
  · cases hs

/-- Everything `readBytes` can answer: it reads iff the count is 0 or the last address is inside RAM (R77), and then the bytes
at ascending addresses. -/
theorem readBytes_eq (m : Memory) (count : Nat) : ∀ a, readBytes m a count =
    if count = 0 ∨ a + count ≤ memSize then some ((List.range count).map (fun r => m.read (a + r))) else none := by
  induction count with
  | zero => intro a; simp [readBytes]
  | succ n ih =>
    intro a
    simp only [readBytes, memRead, ih]
    by_cases h1 : a + (n + 1) ≤ memSize
    · rw [if_pos (by omega), if_pos (by omega), if_pos (Or.inr h1)]
      simp only [List.range_succ_eq_map, List.map_cons, List.map_map, Nat.add_zero]
      refine congrArg some (congrArg _ (List.map_congr_left fun r _ => ?_))
      simp only [Function.comp, Nat.succ_eq_add_one]
      rw [Nat.add_assoc, Nat.add_comm 1 r]
    · rw [if_neg (c := n + 1 = 0 ∨ _) (by omega)]
      by_cases h2 : a < memSize
      · rw [if_pos h2, if_neg (by omega)]
      · rw [if_neg h2]

theorem readBytes_length {m : Memory} {a count : Nat} {bytes : List Byte} (h : readBytes m a count = some bytes) :
    bytes.length = count := by
  rw [readBytes_eq] at h
  split at h <;> simp_all
  simp [← h]

end Sys2Proof.Machine
end

