-- ==== Sys2Proof/Laws/State.lean ====
section
/-! SUPPORT. One lemma per field per update of the state, true by rfl, so that later proofs need not unfold a record update. -/

namespace Sys2Proof.Machine

variable (s : State) (b : Block) (h : HostState) (f : HostFault) (x : Reg) (v : Byte)

@[simp] theorem setBlock_block : (s.setBlock b).block = b := rfl
@[simp] theorem setBlock_host : (s.setBlock b).host = s.host := rfl
@[simp] theorem setBlock_presenter : (s.setBlock b).presenter = s.presenter := rfl
@[simp] theorem setBlock_schedule : (s.setBlock b).schedule = s.schedule := rfl
@[simp] theorem setBlock_config : (s.setBlock b).config = s.config := rfl
@[simp] theorem setBlock_freeDraws : (s.setBlock b).freeDraws = s.freeDraws := rfl

@[simp] theorem setHost_block : (s.setHost h).block = s.block := rfl
@[simp] theorem setHost_host : (s.setHost h).host = h := rfl
@[simp] theorem setHost_presenter : (s.setHost h).presenter = s.presenter := rfl
@[simp] theorem setHost_schedule : (s.setHost h).schedule = s.schedule := rfl
@[simp] theorem setHost_config : (s.setHost h).config = s.config := rfl
@[simp] theorem setHost_freeDraws : (s.setHost h).freeDraws = s.freeDraws := rfl

@[simp] theorem hostFatal_block : (s.hostFatal f).block = s.block.haltInput := rfl
@[simp] theorem hostFatal_host : (s.hostFatal f).host = { s.host with fault := some f } := rfl
@[simp] theorem hostFatal_presenter : (s.hostFatal f).presenter = s.presenter := rfl
@[simp] theorem hostFatal_schedule : (s.hostFatal f).schedule = s.schedule := rfl
@[simp] theorem hostFatal_config : (s.hostFatal f).config = s.config := rfl
@[simp] theorem hostFatal_freeDraws : (s.hostFatal f).freeDraws = s.freeDraws := rfl

@[simp] theorem advance_v : h.advance.v = h.v := rfl
@[simp] theorem advance_i : h.advance.i = h.i := rfl
@[simp] theorem advance_pc : h.advance.pc = h.pc + 2 := rfl
@[simp] theorem advance_mem : h.advance.mem = h.mem := rfl
@[simp] theorem advance_stack : h.advance.stack = h.stack := rfl
@[simp] theorem advance_loop : h.advance.loop = h.loop := rfl
@[simp] theorem advance_keys : h.advance.keys = h.keys := rfl
@[simp] theorem advance_fallthroughs : h.advance.fallthroughs = h.fallthroughs := rfl
@[simp] theorem advance_fault : h.advance.fault = h.fault := rfl
@[simp] theorem readV_advance : h.advance.readV x = h.readV x := rfl

@[simp] theorem writeV_i : (h.writeV x v).i = h.i := rfl
@[simp] theorem writeV_pc : (h.writeV x v).pc = h.pc := rfl
@[simp] theorem writeV_mem : (h.writeV x v).mem = h.mem := rfl
@[simp] theorem writeV_stack : (h.writeV x v).stack = h.stack := rfl
@[simp] theorem writeV_loop : (h.writeV x v).loop = h.loop := rfl
@[simp] theorem writeV_keys : (h.writeV x v).keys = h.keys := rfl
@[simp] theorem writeV_fallthroughs : (h.writeV x v).fallthroughs = h.fallthroughs := rfl
@[simp] theorem writeV_fault : (h.writeV x v).fault = h.fault := rfl

/-- A register reads back what was written to it, and every other register what it held (R17: none aliases another). -/
theorem readV_writeV (y : Reg) : (h.writeV x v).readV y = if y = x then v else h.readV y := by
  simp only [HostState.readV, HostState.writeV, Vector.getElem_set, Fin.ext_iff, eq_comm]

@[simp] theorem readV_writeV_self : (h.writeV x v).readV x = v := by simp [readV_writeV]

theorem readV_writeV_of_ne {y : Reg} (hy : y ≠ x) : (h.writeV x v).readV y = h.readV y := by simp [readV_writeV, hy]

/-- Writing a register changes the registers and nothing else of the host. -/
theorem writeV_eq : h.writeV x v = { h with v := (h.writeV x v).v } := rfl

/-! ### The fault status -/

theorem takeFault_of_running (cause : FaultCause) (hb : b.halted = false) :
    b.takeFault cause = { b with halted := true, faultCause := cause } := by simp [Block.takeFault, hb]

theorem takeFault_of_halted (cause : FaultCause) (hb : b.halted = true) : b.takeFault cause = b := by
  simp [Block.takeFault, hb]

theorem haltInput_of_running (hb : b.halted = false) :
    b.haltInput = { b with halted := true, faultCause := .hostFault } := takeFault_of_running b _ hb

theorem haltInput_of_halted (hb : b.halted = true) : b.haltInput = b := takeFault_of_halted b _ hb

@[simp] theorem takeFault_fb (cause : FaultCause) : (b.takeFault cause).fb = b.fb := by
  unfold Block.takeFault; split <;> rfl
@[simp] theorem takeFault_dt (cause : FaultCause) : (b.takeFault cause).dt = b.dt := by
  unfold Block.takeFault; split <;> rfl
@[simp] theorem takeFault_st (cause : FaultCause) : (b.takeFault cause).st = b.st := by
  unfold Block.takeFault; split <;> rfl
@[simp] theorem takeFault_halted (cause : FaultCause) : (b.takeFault cause).halted = true := by
  unfold Block.takeFault; split <;> simp_all
@[simp] theorem haltInput_fb : b.haltInput.fb = b.fb := takeFault_fb b _
@[simp] theorem haltInput_dt : b.haltInput.dt = b.dt := takeFault_dt b _
@[simp] theorem haltInput_st : b.haltInput.st = b.st := takeFault_st b _
@[simp] theorem haltInput_halted : b.haltInput.halted = true := takeFault_halted b _

end Sys2Proof.Machine
end

