-- ==== Sys2Proof/Laws/Display.lean ====
section
/-! SUPPORT. What complementing a list of cells does, which cells a sprite covers, and the one spec lemma of the block's draw. -/

namespace Sys2Proof.Machine

/-- A list of cells that all exist (R26: x up to 63, y up to 31). -/
def AllCells (cells : List (Nat × Nat)) : Prop := ∀ p ∈ cells, p.1 < 64 ∧ p.2 < 32

/-- Cells listed once each are complemented, every other cell keeps its value (R53, R55 law 1). -/
theorem xorCells_get {cells : List (Nat × Nat)} (hn : cells.Nodup) (hc : AllCells cells) :
    ∀ (acc : Grid × Bool) (x y : Nat), (xorCells cells acc).1.get x y =
      if (x, y) ∈ cells then !acc.1.get x y else acc.1.get x y := by
  induction cells with
  | nil => intro acc x y; simp [xorCells]
  | cons p rest ih =>
    obtain ⟨px, py⟩ := p
    obtain ⟨hp, hrest⟩ := List.nodup_cons.mp hn
    obtain ⟨h64, h32⟩ : px < 64 ∧ py < 32 := hc (px, py) (by simp)
    intro acc x y
    rw [xorCells, ih hrest (fun q hq => hc q (by simp [hq])), get_set]
    by_cases e : x = px ∧ y = py
    · obtain ⟨rfl, rfl⟩ := e
      simp [hp, h64, h32]
    · have hne : (x, y) ≠ (px, py) := fun h => e (Prod.mk.inj h)
      have hset : ¬ (x = px ∧ y = py ∧ px < 64 ∧ py < 32) := fun h => e ⟨h.1, h.2.1⟩
      simp only [if_neg hset, List.mem_cons, hne, false_or]

/-- The collision bit: it was set before, or one of the cells held 1 before (R54). -/
theorem xorCells_collision {cells : List (Nat × Nat)} (hn : cells.Nodup) :
    ∀ acc : Grid × Bool, (xorCells cells acc).2 = true ↔ acc.2 = true ∨ ∃ p ∈ cells, acc.1.get p.1 p.2 = true := by
  induction cells with
  | nil => intro acc; simp [xorCells]
  | cons p rest ih =>
    obtain ⟨px, py⟩ := p
    obtain ⟨hp, hrest⟩ := List.nodup_cons.mp hn
    intro acc
    have later : ∀ q ∈ rest, (acc.1.set px py (!acc.1.get px py)).get q.1 q.2 = acc.1.get q.1 q.2 := by
      rintro ⟨qx, qy⟩ hq
      rw [get_set, if_neg]
      rintro ⟨rfl, rfl, -⟩
      exact hp hq
    rw [xorCells, ih hrest]
    simp only [Bool.or_eq_true, List.exists_mem_cons_iff, or_assoc]
    refine or_congr_right (or_congr_right ⟨?_, ?_⟩) <;> rintro ⟨q, hq, h⟩ <;> refine ⟨q, hq, ?_⟩
    · rwa [later q hq] at h
    · rwa [later q hq]

theorem mem_rowCells {msb : Bool} {x0 y : Nat} {row : Byte} {cx cy : Nat} :
    (cx, cy) ∈ rowCells msb x0 y row ↔ cy = y ∧ ∃ c, c < 8 ∧ x0 + c = cx ∧ spriteBit msb row c = true := by
  simp only [rowCells, List.mem_filterMap, List.mem_range]
  constructor
  · rintro ⟨c, hc, h⟩
    split at h
    · next hb => cases h; exact ⟨rfl, c, hc, rfl, hb⟩
    · cases h
  · rintro ⟨rfl, c, hc, rfl, hb⟩
    exact ⟨c, hc, by rw [if_pos hb]⟩

/-- The cells a sprite's loop visits are the cells under its set bits (R51, R53). -/
theorem mem_spriteCells {msb : Bool} {x0 : Nat} {rows : List Byte} : ∀ {y cx cy : Nat},
    (cx, cy) ∈ spriteCells msb x0 y rows ↔ SpriteBitSet msb x0 y rows cx cy := by
  induction rows with
  | nil => intro y cx cy; simp [spriteCells, SpriteBitSet]
  | cons row rest ih =>
    intro y cx cy
    rw [spriteCells, List.mem_append, mem_rowCells, ih]
    constructor
    · rintro (⟨rfl, c, hc, hx, hb⟩ | ⟨r, c, hr, hc, hx, hy, hb⟩)
      · exact ⟨0, c, by simp, hc, hx, rfl, by simpa using hb⟩
      · exact ⟨r + 1, c, by simpa using hr, hc, hx, by omega, by simpa using hb⟩
    · rintro ⟨r, c, hr, hc, hx, hy, hb⟩
      cases r with
      | zero => exact Or.inl ⟨by omega, c, hc, hx, by simpa using hb⟩
      | succ r => exact Or.inr ⟨r, c, by simpa using hr, hc, hx, by omega, by simpa using hb⟩

theorem nodup_rowCells (msb : Bool) (x0 y : Nat) (row : Byte) : (rowCells msb x0 y row).Nodup := by
  refine List.Nodup.filterMap ?_ List.nodup_range
  intro c c' p hc hc'
  simp only [Option.mem_def] at hc hc'
  split at hc <;> split at hc' <;> simp_all
  have := hc.trans hc'.symm
  simp only [Prod.mk.injEq] at this
  omega

/-- "Within one DRAW each cell is addressed at most once" (R55 law 1). -/
theorem nodup_spriteCells {msb : Bool} {x0 : Nat} {rows : List Byte} : ∀ {y : Nat}, (spriteCells msb x0 y rows).Nodup := by
  induction rows with
  | nil => intro y; exact List.nodup_nil
  | cons row rest ih =>
    intro y
    rw [spriteCells, List.nodup_append']
    refine ⟨nodup_rowCells msb x0 y row, ih, ?_⟩
    rintro ⟨cx, cy⟩ h1 h2
    obtain ⟨rfl, -⟩ := mem_rowCells.mp h1
    obtain ⟨r, c, -, -, -, hy, -⟩ := mem_spriteCells.mp h2
    omega

theorem footprintInside_iff {x0 y0 n : Nat} : footprintInside x0 y0 n = true ↔ n = 0 ∨ (x0 ≤ 56 ∧ y0 + n ≤ 32) := by
  simp [footprintInside]

/-- A footprint inside the grid covers cells only (R52). -/
theorem SpriteBitSet.inGrid {msb : Bool} {x0 y0 cx cy : Nat} {rows : List Byte} (h : SpriteBitSet msb x0 y0 rows cx cy)
    (hf : footprintInside x0 y0 rows.length = true) : cx < 64 ∧ cy < 32 := by
  obtain ⟨r, c, hr, hc, hx, hy, -⟩ := h
  rcases footprintInside_iff.mp hf with h0 | ⟨h1, h2⟩ <;> omega

theorem allCells_spriteCells {msb : Bool} {x0 y0 : Nat} {rows : List Byte} (hf : footprintInside x0 y0 rows.length = true) :
    AllCells (spriteCells msb x0 y0 rows) := fun _ hp => (mem_spriteCells.mp hp).inGrid hf

/-- The block's draw inside the grid, whole: which cells change and when it collides (R53, R54). -/
theorem draw_inside {msb : Bool} {xIn yIn : Byte} {rows : List Byte} {b : Block} (hb : b.halted = false)
    (hf : footprintInside (originX xIn) (originY yIn) rows.length = true) :
    ∃ g c, b.draw msb xIn yIn rows = ({ b with fb := g }, some c) ∧
      (∀ cx cy, (SpriteBitSet msb (originX xIn) (originY yIn) rows cx cy → g.get cx cy = !b.fb.get cx cy) ∧
        (¬ SpriteBitSet msb (originX xIn) (originY yIn) rows cx cy → g.get cx cy = b.fb.get cx cy)) ∧
      (c = true ↔ ∃ cx cy, SpriteBitSet msb (originX xIn) (originY yIn) rows cx cy ∧ b.fb.get cx cy = true) := by
  refine ⟨(xorCells (spriteCells msb (originX xIn) (originY yIn) rows) (b.fb, false)).1,
    (xorCells (spriteCells msb (originX xIn) (originY yIn) rows) (b.fb, false)).2, by simp [Block.draw, hb, hf], ?_, ?_⟩
  · intro cx cy
    rw [xorCells_get nodup_spriteCells (allCells_spriteCells hf)]
    exact ⟨fun h => if_pos (mem_spriteCells.mpr h), fun h => if_neg (fun hm => h (mem_spriteCells.mp hm))⟩
  · rw [xorCells_collision nodup_spriteCells]
    simp only [Bool.false_eq_true, false_or, Prod.exists, mem_spriteCells]

/-- The block's draw outside the grid (R52, R86). -/
theorem draw_outside {msb : Bool} {xIn yIn : Byte} {rows : List Byte} {b : Block}
    (hb : b.halted = false) (hf : footprintInside (originX xIn) (originY yIn) rows.length = false) :
    b.draw msb xIn yIn rows = ({ b with halted := true, faultCause := .displayOutOfBounds }, none) := by
  simp [Block.draw, hb, hf, takeFault_of_running]

/-- A halted block ignores a draw (R89). -/
theorem draw_halted {msb : Bool} {xIn yIn : Byte} {rows : List Byte} {b : Block} (hb : b.halted = true) :
    b.draw msb xIn yIn rows = (b, none) := by
  simp [Block.draw, hb]

end Sys2Proof.Machine
end

