-- ==== Sys2Proof/Laws/Timer.lean ====
section
/-! SUPPORT. The countdown and the block's timer operations. -/

namespace Sys2Proof.Machine

/-- One countdown is subtraction of 1 with a floor of 0 (R63, R64: "There is no wrap"). -/
@[simp] theorem countDown_toNat (t : Byte) : (countDown t).toNat = t.toNat - 1 := by
  unfold countDown
  split
  · next h => simp [h]
  · next h =>
    have : t.toNat ≠ 0 := fun h' => h (BitVec.eq_of_toNat_eq h')
    have := t.isLt
    rw [BitVec.toNat_sub]
    change (2 ^ 8 - 1 + t.toNat) % 2 ^ 8 = t.toNat - 1
    omega

theorem beep_iff (b : Block) : b.beep = true ↔ 0 < b.st.toNat := by
  rw [Block.beep, bne_iff_ne, Nat.pos_iff_ne_zero, ne_eq, ne_eq, ← BitVec.toNat_inj]
  rfl

variable {b : Block} {v : Byte}

theorem tick_of_running (hb : b.halted = false) : b.tick = { b with dt := countDown b.dt, st := countDown b.st } := by
  simp [Block.tick, hb]
theorem tick_of_halted (hb : b.halted = true) : b.tick = b := by simp [Block.tick, hb]
theorem setDt_of_running (hb : b.halted = false) : b.setDt v = { b with dt := v } := by simp [Block.setDt, hb]
theorem setDt_of_halted (hb : b.halted = true) : b.setDt v = b := by simp [Block.setDt, hb]
theorem setSt_of_running (hb : b.halted = false) : b.setSt v = { b with st := v } := by simp [Block.setSt, hb]
theorem setSt_of_halted (hb : b.halted = true) : b.setSt v = b := by simp [Block.setSt, hb]
theorem getDt_of_running (hb : b.halted = false) : b.getDt = some b.dt := by simp [Block.getDt, hb]
theorem getDt_of_halted (hb : b.halted = true) : b.getDt = none := by simp [Block.getDt, hb]

end Sys2Proof.Machine
end

