-- ==== Sys2Proof/Laws/Exec.lean ====
section
/-! SUPPORT. What each command can do, said once: its outcome on a running block, and that a halted block ignores it. -/

namespace Sys2Proof.Machine

variable {s : State} {x y : Reg} {n : Fin 16}

theorem clear_of_running {b : Block} (hb : b.halted = false) : b.clear = { b with fb := Grid.clear } := by
  simp [Block.clear, hb]

theorem clear_of_halted {b : Block} (hb : b.halted = true) : b.clear = b := by simp [Block.clear, hb]

theorem execClear_running (hs : s.block.halted = false) :
    execClear s = .next { s with block := { s.block with fb := Grid.clear } } := by
  simp [execClear, State.setBlock, clear_of_running hs]

theorem execGetDt_running (hs : s.block.halted = false) :
    execGetDt x s = .next { s with host := s.host.writeV x s.block.dt } := by
  simp [execGetDt, State.setHost, getDt_of_running hs]

theorem execSetDt_running (hs : s.block.halted = false) :
    execSetDt x s = .next { s with block := { s.block with dt := s.host.readV x } } := by
  simp [execSetDt, State.setBlock, setDt_of_running hs]

theorem execSetSt_running (hs : s.block.halted = false) :
    execSetSt x s = .next { s with block := { s.block with st := s.host.readV x } } := by
  simp [execSetSt, State.setBlock, setSt_of_running hs]

/-- The sprite fetch as arithmetic (R77). -/
theorem spriteRows_eq (h : HostState) (n : Fin 16) : h.spriteRows n =
    if n.val = 0 ∨ h.i.toNat + n.val ≤ 4096 then some (h.spriteInRam n) else none := readBytes_eq h.mem n.val h.i.toNat

@[simp] theorem spriteInRam_length (h : HostState) (n : Fin 16) : (h.spriteInRam n).length = n.val := by
  simp [HostState.spriteInRam]

/-- A draw whose sprite cannot be fetched (R77, R91). -/
theorem execDraw_unreadable (hs : s.block.halted = false) (hr : ¬ s.host.spriteReadable n) :
    execDraw x y n s = .next (s.hostFatal .memoryOutOfBounds) := by
  have : s.host.spriteRows n = none := by rw [spriteRows_eq]; exact if_neg hr
  simp [execDraw, hs, this]

/-- A draw whose sprite can be fetched is the block's draw on the sampled operands (R76). -/
theorem execDraw_readable (hs : s.block.halted = false) (hr : s.host.spriteReadable n) :
    execDraw x y n s = .next (finishDraw (s.block.draw s.config.spriteMsbFirst (s.host.readV x) (s.host.readV y)
      (s.host.spriteInRam n)) s) := by
  have : s.host.spriteRows n = some (s.host.spriteInRam n) := by rw [spriteRows_eq]; exact if_pos hr
  simp [execDraw, hs, this]

theorem fits_iff : s.host.drawFits x y n ↔ footprintInside (originX (s.host.readV x)) (originY (s.host.readV y))
    (s.host.spriteInRam n).length = true := by
  rw [footprintInside_iff, spriteInRam_length]; rfl

/-- A draw outside the grid (R52, R81, R86). -/
theorem execDraw_outside (hs : s.block.halted = false) (hr : s.host.spriteReadable n) (hf : ¬ s.host.drawFits x y n) :
    execDraw x y n s = .next { s with block := { s.block with halted := true, faultCause := .displayOutOfBounds } } := by
  rw [execDraw_readable hs hr, draw_outside hs (by rw [← Bool.not_eq_true]; exact fun h => hf (fits_iff.mpr h))]
  rfl

/-- A draw inside the grid: one new grid and one collision bit, which VF takes; everything else stays (R53, R54, R78). -/
theorem execDraw_inside (hs : s.block.halted = false) (hr : s.host.spriteReadable n) (hf : s.host.drawFits x y n) :
    ∃ g c, execDraw x y n s = .next { s with block := { s.block with fb := g }, host := s.host.writeFlag c } ∧
      s.block.draw s.config.spriteMsbFirst (s.host.readV x) (s.host.readV y) (s.host.spriteInRam n) =
        ({ s.block with fb := g }, some c) := by
  obtain ⟨g, c, hd, -, -⟩ := draw_inside (msb := s.config.spriteMsbFirst) hs (fits_iff.mp hf)
  exact ⟨g, c, by rw [execDraw_readable hs hr, hd]; rfl, hd⟩

/-- A halted block ignores every command, and the host has stopped (R89). -/
theorem exec_halted (hs : s.block.halted = true) (i : Instr) : exec i s = .next s := by
  cases i with
  | clear => simp [exec, execClear, clear_of_halted hs, State.setBlock]
  | draw x y n => simp [exec, execDraw, hs]
  | getDt x => simp [exec, execGetDt, getDt_of_halted hs]
  | setDt x => simp [exec, execSetDt, setDt_of_halted hs, State.setBlock]
  | setSt x => simp [exec, execSetSt, setSt_of_halted hs, State.setBlock]

/-- What a command can do, said once for all five. -/
inductive CommandEffect (s : State) : Instr → State → Prop where
  | ignored (i : Instr) (hs : s.block.halted = true) : CommandEffect s i s
  | clear (hs : s.block.halted = false) : CommandEffect s .clear { s with block := { s.block with fb := Grid.clear } }
  | drawn (x y : Reg) (n : Fin 16) (g : Grid) (c : Bool) (hs : s.block.halted = false) (hr : s.host.spriteReadable n)
      (hf : s.host.drawFits x y n) :
      CommandEffect s (.draw x y n) { s with block := { s.block with fb := g }, host := s.host.writeFlag c }
  | outside (x y : Reg) (n : Fin 16) (hs : s.block.halted = false) (hr : s.host.spriteReadable n)
      (hf : ¬ s.host.drawFits x y n) : CommandEffect s (.draw x y n)
        { s with block := { s.block with halted := true, faultCause := .displayOutOfBounds } }
  | unreadable (x y : Reg) (n : Fin 16) (hs : s.block.halted = false) (hr : ¬ s.host.spriteReadable n) :
      CommandEffect s (.draw x y n) (s.hostFatal .memoryOutOfBounds)
  | getDt (x : Reg) (hs : s.block.halted = false) : CommandEffect s (.getDt x) { s with host := s.host.writeV x s.block.dt }
  | setDt (x : Reg) (hs : s.block.halted = false) :
      CommandEffect s (.setDt x) { s with block := { s.block with dt := s.host.readV x } }
  | setSt (x : Reg) (hs : s.block.halted = false) :
      CommandEffect s (.setSt x) { s with block := { s.block with st := s.host.readV x } }

/-- Every command answers a next state, and it is one of the effects above. -/
theorem exec_effect (i : Instr) (s : State) : ∃ t, exec i s = .next t ∧ CommandEffect s i t := by
  by_cases hs : s.block.halted = true
  · exact ⟨s, exec_halted hs i, .ignored i hs⟩
  · have hs : s.block.halted = false := by simpa using hs
    cases i with
    | clear => exact ⟨_, execClear_running hs, .clear hs⟩
    | draw x y n =>
      by_cases hr : s.host.spriteReadable n
      · by_cases hf : s.host.drawFits x y n
        · obtain ⟨g, c, h, -⟩ := execDraw_inside hs hr hf
          exact ⟨_, h, .drawn x y n g c hs hr hf⟩
        · exact ⟨_, execDraw_outside hs hr hf, .outside x y n hs hr hf⟩
      · exact ⟨_, execDraw_unreadable hs hr, .unreadable x y n hs hr⟩
    | getDt x => exact ⟨_, execGetDt_running hs, .getDt x hs⟩
    | setDt x => exact ⟨_, execSetDt_running hs, .setDt x hs⟩
    | setSt x => exact ⟨_, execSetSt_running hs, .setSt x hs⟩

theorem exec_cases {i : Instr} {t : State} (h : exec i s = .next t) : CommandEffect s i t := by
  obtain ⟨t', h', e⟩ := exec_effect i s
  cases h.symm.trans h'
  exact e

end Sys2Proof.Machine
end

