-- ==== Sys2Proof/Laws/HostWords.lean ====
section
/-! SUPPORT. What a host word can do, said once: the host changes and nothing else, or the host takes a fatal fault. -/

namespace Sys2Proof.Machine

/-- A change of the host's own: registers, `I`, program counter, RAM, stack, loop, counters; the key snapshot and the fault
record stay, RAM stays canonical and the stack within its capacity. -/
structure HostOnly (s t : State) : Prop where
  eq : t = { s with host := t.host, freeDraws := t.freeDraws }
  fault : t.host.fault = s.host.fault
  memory : s.host.mem.wf = true → t.host.mem.wf = true
  stack : s.host.stack.length ≤ stackCapacity → t.host.stack.length ≤ stackCapacity

theorem hostOnly_setHost {s : State} {h : HostState} (hf : h.fault = s.host.fault) (hm : h.mem = s.host.mem)
    (hs : h.stack = s.host.stack) : HostOnly s (s.setHost h) :=
  ⟨rfl, hf, fun w => by simpa [hm] using w, fun w => by simpa [hs] using w⟩

theorem skipIf_fault (h : HostState) (c : Bool) : (h.skipIf c).fault = h.fault := by unfold HostState.skipIf; split <;> rfl
theorem skipIf_mem (h : HostState) (c : Bool) : (h.skipIf c).mem = h.mem := by unfold HostState.skipIf; split <;> rfl
theorem skipIf_stack (h : HostState) (c : Bool) : (h.skipIf c).stack = h.stack := by unfold HostState.skipIf; split <;> rfl

theorem hostOnly_skip (s : State) (c : Bool) : HostOnly s (s.setHost (s.host.skipIf c)) :=
  hostOnly_setHost (skipIf_fault _ _) (skipIf_mem _ _) (skipIf_stack _ _)

theorem hostOnly_draw {s t : State} (h : HostOnly s t) (d : Nat) : HostOnly s { t with freeDraws := d } := by
  obtain ⟨he, hf, hm, hs⟩ := h
  exact ⟨by rw [he], hf, hm, hs⟩

theorem hostOnly_writeResult (s : State) (x : Reg) (r : Byte × Option Bool) :
    HostOnly s (s.setHost (s.host.writeResult x r)) := by
  refine hostOnly_setHost ?_ ?_ ?_ <;> unfold HostState.writeResult <;> split <;> rfl

theorem hostStore_cases (bytes : List Byte) (i : Word) (s : State) :
    HostOnly s (hostStore bytes i s) ∨ ∃ f, hostStore bytes i s = s.hostFatal f := by
  unfold hostStore
  split
  · next m hm => exact Or.inl ⟨rfl, rfl, fun w => storeBytes_wf w hm, fun w => w⟩
  · exact Or.inr ⟨_, rfl⟩

theorem hostLoadRegs_cases (x : Reg) (s : State) :
    HostOnly s (hostLoadRegs x s) ∨ ∃ f, hostLoadRegs x s = s.hostFatal f := by
  unfold hostLoadRegs
  split
  · exact Or.inl ⟨rfl, rfl, fun w => w, fun w => w⟩
  · exact Or.inr ⟨_, rfl⟩

theorem hostCall_cases (target : Word) (s : State) :
    HostOnly s (hostCall target s) ∨ ∃ f, hostCall target s = s.hostFatal f := by
  unfold hostCall
  split
  · next h => exact Or.inl ⟨rfl, rfl, fun w => w, fun _ => h⟩
  · exact Or.inr ⟨_, rfl⟩

theorem hostReturn_cases (s : State) : HostOnly s (hostReturn s) ∨ ∃ f, hostReturn s = s.hostFatal f := by
  unfold hostReturn
  split
  · next top rest h =>
    refine Or.inl ⟨rfl, rfl, fun w => w, fun w => ?_⟩
    rw [h, List.length_cons] at w
    exact Nat.le_of_succ_le w
  · exact Or.inr ⟨_, rfl⟩

/-- The effect of a host word: the host's own state changes, or the host takes a fatal fault (R45, R49, R82). -/
theorem execHostInstr_cases (i : HostInstr) (s : State) :
    HostOnly s (execHostInstr i s) ∨ ∃ f, execHostInstr i s = s.hostFatal f := by
  cases i with
  | ret => exact hostReturn_cases s
  | call nnn => exact hostCall_cases nnn s
  | storeDecimal x => exact hostStore_cases _ _ s
  | storeRegs x => exact hostStore_cases _ _ s
  | loadRegs x => exact hostLoadRegs_cases x s
  | skipEqImm _ _ | skipNeImm _ _ | skipEqReg _ _ | skipNeReg _ _ => exact Or.inl (hostOnly_skip s _)
  | skipKeyHeld _ | skipKeyNotHeld _ => exact Or.inl (hostOnly_draw (hostOnly_skip s _) _)
  | alu op x y => exact Or.inl (hostOnly_writeResult s x _)
  | random x nn => exact Or.inl ⟨rfl, rfl, fun w => w, fun w => w⟩
  | jump _ | jumpB _ | loadImm _ _ | addImm _ _ | loadIndex _ | addIndex _ | waitKey _ | fontIndex _ =>
    exact Or.inl (hostOnly_setHost rfl rfl rfl)

theorem execHostWord_cases (w : Word) (s : State) :
    HostOnly s (execHostWord w s) ∨ ∃ f, execHostWord w s = s.hostFatal f := by
  unfold execHostWord
  split
  · exact execHostInstr_cases _ s
  · exact Or.inl (hostOnly_setHost rfl rfl rfl)

/-- What a host word does to the host does not depend on the block, and what it does to the block is nothing or the halt input
(R45, R49, R82): `fatal` says which, for every block alike. -/
def BlindToBlock (f : State → State) (s : State) : Prop :=
  ∃ fatal : Bool, ∀ b : Block, f { s with block := b } = { f s with block := if fatal then b.haltInput else b }

theorem hostStore_blind (bytes : List Byte) (i : Word) (s : State) : BlindToBlock (hostStore bytes i) s := by
  cases h : storeBytes s.host.mem s.host.i.toNat bytes with
  | none => exact ⟨true, fun b => by simp only [hostStore, h]; rfl⟩
  | some m => exact ⟨false, fun b => by simp only [hostStore, h]; rfl⟩

theorem hostLoadRegs_blind (x : Reg) (s : State) : BlindToBlock (hostLoadRegs x) s := by
  cases h : readBytes s.host.mem s.host.i.toNat (x.val + 1) with
  | none => exact ⟨true, fun b => by simp only [hostLoadRegs, h]; rfl⟩
  | some bytes => exact ⟨false, fun b => by simp only [hostLoadRegs, h]; rfl⟩

theorem hostCall_blind (target : Word) (s : State) : BlindToBlock (hostCall target) s := by
  by_cases h : s.host.stack.length < stackCapacity
  · exact ⟨false, fun b => by simp only [hostCall, h, if_true]; rfl⟩
  · exact ⟨true, fun b => by simp only [hostCall, h, if_false]; rfl⟩

theorem hostReturn_blind (s : State) : BlindToBlock hostReturn s := by
  cases h : s.host.stack with
  | nil => exact ⟨true, fun b => by simp only [hostReturn, h]; rfl⟩
  | cons top rest => exact ⟨false, fun b => by simp only [hostReturn, h]; rfl⟩

theorem execHostInstr_blind (i : HostInstr) (s : State) : BlindToBlock (execHostInstr i) s := by
  cases i with
  | ret => exact hostReturn_blind s
  | call nnn => exact hostCall_blind nnn s
  | storeDecimal x =>
    obtain ⟨fatal, h⟩ := hostStore_blind (decimalDigits (s.host.readV x)) s.host.i s
    exact ⟨fatal, h⟩
  | storeRegs x =>
    obtain ⟨fatal, h⟩ := hostStore_blind (s.host.firstRegs x) (blockCopyIndex x s) s
    exact ⟨fatal, h⟩
  | loadRegs x => exact hostLoadRegs_blind x s
  | _ => exact ⟨false, fun b => rfl⟩

theorem execHostWord_blind (w : Word) (s : State) : BlindToBlock (execHostWord w) s := by
  cases h : decodeHost w with
  | none => exact ⟨false, fun b => by simp only [execHostWord, h]; rfl⟩
  | some i =>
    obtain ⟨fatal, hb⟩ := execHostInstr_blind i s
    exact ⟨fatal, fun b => by simp only [execHostWord, h]; exact hb b⟩

end Sys2Proof.Machine
end

