-- ==== Sys2Proof/Laws/PerInstr.lean ====
section
/-! SUPPORT. Statements about every instruction as syntax, one lemma per constructor. -/

/-- The word an instruction encodes to belongs to the instruction's own row of the opcode map (R43). -/
def Sys2Proof.Laws.InRow.Statement (i : Sys2Proof.Instr) : Prop := (Sys2Proof.Instr.row i).selects (Sys2Proof.encode i) = true

namespace Sys2Proof.Laws

theorem InRow.clear : InRow.Statement .clear := by
  rw [InRow.Statement, Instr.row, clearRow_selects]; rfl

theorem InRow.draw (x y : Reg) (n : Fin 16) : InRow.Statement (.draw x y n) := by
  rw [InRow.Statement, Instr.row, drawRow_selects, encode_draw_toNat]; omega

theorem InRow.getDt (x : Reg) : InRow.Statement (.getDt x) := by
  rw [InRow.Statement, Instr.row, getDtRow_selects, encode_getDt_toNat]; omega

theorem InRow.setDt (x : Reg) : InRow.Statement (.setDt x) := by
  rw [InRow.Statement, Instr.row, setDtRow_selects, encode_setDt_toNat]; omega

theorem InRow.setSt (x : Reg) : InRow.Statement (.setSt x) := by
  rw [InRow.Statement, Instr.row, setStRow_selects, encode_setSt_toNat]; omega

end Sys2Proof.Laws
end

