-- ==== Sys2Proof/Laws/Step.lean ====
section
/-! SUPPORT. What one step can do, said once: whose turn it was and what that turn did. -/

namespace Sys2Proof.Machine

/-- The state with the turn at the head of the schedule used up. -/
def State.popTurn (s : State) : State := { s with schedule := s.schedule.tail }

@[simp] theorem popTurn_block (s : State) : s.popTurn.block = s.block := rfl
@[simp] theorem popTurn_host (s : State) : s.popTurn.host = s.host := rfl
@[simp] theorem popTurn_presenter (s : State) : s.popTurn.presenter = s.presenter := rfl
@[simp] theorem popTurn_schedule (s : State) : s.popTurn.schedule = s.schedule.tail := rfl
@[simp] theorem popTurn_config (s : State) : s.popTurn.config = s.config := rfl
@[simp] theorem popTurn_freeDraws (s : State) : s.popTurn.freeDraws = s.freeDraws := rfl

/-- A step that answers a next state is the turn of whoever moves next, on the state with that turn used up. -/
theorem step_next {s t : State} (h : step s = .next t) : takeTurn s.mover s.popTurn = .next t := by
  unfold step at h
  split at h
  · next hs =>
    have : s.popTurn = s := by cases s; simp_all [State.popTurn]
    rw [State.mover, hs, this]
    unfold runAlone at h
    split at h
    · cases h
    · split at h
      · cases h
      · exact h
  · next hs => rw [State.mover, hs, State.popTurn, hs]; exact h

/-- The turn of whoever moves next is the step, unless the run has ended (R88, R85). -/
theorem step_of_turn {s t : State} (h : takeTurn s.mover s.popTurn = .next t)
    (hne : ¬ (s.schedule = [] ∧ (s.block.halted = true ∨ s.host.loop = .notStarted))) : step s = .next t := by
  unfold step
  cases hs : s.schedule with
  | nil =>
    have e : s.popTurn = s := by cases s; simp_all [State.popTurn]
    have hm : s.mover = .host := by simp [State.mover, hs]
    rw [e, hm] at h
    simp only [hs, true_and, not_or] at hne
    dsimp only
    unfold runAlone
    rw [if_neg hne.1]
    split
    · exact absurd ‹_› hne.2
    · exact h
  | cons a r => simpa [State.mover, hs, State.popTurn] using h

theorem step_cons {s : State} {t : Turn} {rest : List Turn} (h : s.schedule = t :: rest) :
    step s = takeTurn t { s with schedule := rest } := by simp only [step, h]

/-- A step that stops: the schedule is empty, and the block is halted or the loop never started. -/
theorem step_fault_iff {s : State} {f : Fault} : step s = .fault f ↔ s.schedule = [] ∧
    ((s.block.halted = true ∧ f = .halted) ∨
      (s.block.halted = false ∧ s.host.loop = .notStarted ∧ f = .romLoadFailure)) := by
  have turnNext : ∀ (turn : Turn) (u : State), ∃ t, takeTurn turn u = .next t := by
    intro turn u
    cases turn with
    | host =>
      simp only [takeTurn, hostTurn, hostCycle]
      split
      · exact ⟨_, rfl⟩
      · split
        · split
          · exact ⟨_, rfl⟩
          · split
            · obtain ⟨t, h, -⟩ := exec_effect ‹_› (u.setHost u.host.advance); exact ⟨t, h⟩
            · exact ⟨_, rfl⟩
        · exact ⟨_, rfl⟩
        · exact ⟨_, rfl⟩
    | _ => exact ⟨_, rfl⟩
  unfold step
  split
  · next hs =>
    simp only [hs, true_and]
    unfold runAlone
    split
    · next hh => simp [hh, eq_comm]
    · next hh =>
      have hh : s.block.halted = false := by simpa using hh
      split
      · next hl => simp [hh, hl, eq_comm]
      · next hl =>
        obtain ⟨t, ht⟩ := turnNext .host s
        simp only [takeTurn] at ht
        simpa [ht, hh] using fun h => absurd h hl
  · next turn rest hs =>
    obtain ⟨t, ht⟩ := turnNext turn { s with schedule := rest }
    simp [ht, hs]

/-- The host's turn: it does nothing when the host has stopped or waits, and is one host step otherwise. -/
theorem hostTurn_cases {s t : State} (h : hostTurn s = .next t) :
    (t = s ∧ ¬ s.hostReady) ∨ (s.hostReady ∧ hostCycle s = .next t) := by
  unfold hostTurn at h
  split at h
  · next hh => cases h; exact Or.inl ⟨rfl, fun hr => by simp [hr.1] at hh⟩
  · next hh =>
    split at h
    · next hl => exact Or.inr ⟨⟨by simpa using hh, hl⟩, h⟩
    · next hl => cases h; exact Or.inl ⟨rfl, fun hr => by simp [hr.2] at hl⟩
    · next hl => cases h; exact Or.inl ⟨rfl, fun hr => by simp [hr.2] at hl⟩

theorem hostTurn_ready {s : State} (h : s.hostReady) : hostTurn s = hostCycle s := by
  simp [hostTurn, h.1, h.2]

/-- One host step: the fetch fault, the block's command, or the host's own word (R73). -/
theorem hostCycle_cases {s t : State} (h : hostCycle s = .next t) :
    (s.host.fetchWord = none ∧ t = s.hostFatal .memoryOutOfBounds) ∨
    (∃ w i, s.host.fetchWord = some w ∧ decode w = some i ∧ CommandEffect (s.setHost s.host.advance) i t) ∨
    (∃ w, s.host.fetchWord = some w ∧ decode w = none ∧ t = execHostWord w (s.setHost s.host.advance)) := by
  unfold hostCycle at h
  split at h
  · next hw => cases h; exact Or.inl ⟨hw, rfl⟩
  · next w hw =>
    split at h
    · next i hi => exact Or.inr (Or.inl ⟨w, i, hw, hi, exec_cases h⟩)
    · next hi => cases h; exact Or.inr (Or.inr ⟨w, hw, hi, rfl⟩)

/-- The fetch as arithmetic (R28, R73). -/
theorem fetchWord_eq (h : HostState) : h.fetchWord =
    if h.pc.toNat + 2 ≤ 4096 then some (wordOfBytes (h.mem.read h.pc.toNat) (h.mem.read (h.pc.toNat + 1))) else none := by
  unfold HostState.fetchWord
  rw [readBytes_eq]
  by_cases hp : h.pc.toNat + 2 ≤ 4096
  · rw [if_pos hp, if_pos (show _ ∨ _ ≤ memSize from Or.inr hp)]; rfl
  · rw [if_neg hp, if_neg (by rw [memSize]; omega)]

/-! ### A step, by whose turn it is -/

/-- The host's turn on a state where it can issue a word is one host step (R73). -/
theorem step_host {s : State} {rest : List Turn} (hr : s.hostReady) (hm : s.hostMovesThen rest) :
    step s = hostCycle { s with schedule := rest } := by
  rcases hm with ⟨h1, rfl⟩ | h1
  · have : { s with schedule := [] } = s := by cases s; simp_all
    rw [this]
    unfold step
    rw [h1]
    simp only [runAlone, hr.1, hr.2]
    exact hostTurn_ready hr
  · rw [step_cons h1]
    exact hostTurn_ready (s := { s with schedule := rest }) hr

theorem hostMovesThen_tail {s : State} (h : s.mover = .host) : s.hostMovesThen s.schedule.tail := by
  unfold State.mover at h
  cases hs : s.schedule with
  | nil => exact Or.inl ⟨hs, rfl⟩
  | cons t rest =>
    rw [hs] at h
    obtain rfl : t = .host := h
    exact Or.inr hs

/-- A step that issues a command is the command's meaning on the state with the turn used up and the counter advanced. -/
theorem step_issues {s : State} {i : Instr} (h : s.issues i) : step s = exec i (s.popTurn.setHost s.host.advance) := by
  obtain ⟨hm, hr, w, hw, hi⟩ := h
  rw [step_host hr (hostMovesThen_tail hm)]
  unfold hostCycle
  simp only [hw, hi]
  rfl

/-- Everything the host's turn can do: nothing, the fetch fault, a command's effect, or a word of its own. -/
inductive HostEffect (s t : State) : Prop where
  | idle (ht : t = s.popTurn) (hr : ¬ s.hostReady)
  | fetchFault (hr : s.hostReady) (hw : s.host.fetchWord = none) (ht : t = s.popTurn.hostFatal .memoryOutOfBounds)
  | command (i : Instr) (hi : s.issues i) (ht : CommandEffect (s.popTurn.setHost s.host.advance) i t)
  | ownWord (w : Word) (hr : s.hostReady) (hw : s.host.fetchWord = some w) (hd : decode w = none)
      (ht : t = execHostWord w (s.popTurn.setHost s.host.advance))

/-- Everything another agent's turn can do. -/
inductive EventEffect (s t : State) : Prop where
  | tick (hm : s.mover = .tick) (ht : t = s.popTurn.setBlock s.block.tick)
  | snapshot (hm : s.mover = .snapshot) (ht : t = snapshotTurn s.popTurn)
  | haltInput (hm : s.mover = .haltInput) (ht : t = s.popTurn.setBlock s.block.haltInput)
  | reset (hm : s.mover = .reset) (ht : t = s.popTurn.setBlock (Block.afterReset s.config))
  | startUp (rom : List Byte) (font : Vector Byte 80) (hm : s.mover = .startUp rom font) (ht : t = startUpTurn rom font s.popTurn)
  | keyDown (k : Fin 16) (hm : s.mover = .keyDown k) (ht : t = keyDownTurn k s.popTurn)
  | keyUp (k : Fin 16) (hm : s.mover = .keyUp k) (ht : t = keyUpTurn k s.popTurn)

/-- The one inversion lemma of `step`: the host's turn or another agent's, and what it did. -/
theorem step_cases {s t : State} (h : step s = .next t) : (s.mover = .host ∧ HostEffect s t) ∨ (s.mover ≠ .host ∧ EventEffect s t) := by
  have h' := step_next h
  cases hm : s.mover with
  | host =>
    rw [hm] at h'
    refine Or.inl ⟨rfl, ?_⟩
    rcases hostTurn_cases h' with ⟨h1, h2⟩ | ⟨h1, h2⟩
    · exact .idle h1 h2
    · rcases hostCycle_cases h2 with ⟨h3, h4⟩ | ⟨w, i, h3, h4, h5⟩ | ⟨w, h3, h4, h5⟩
      · exact .fetchFault h1 h3 h4
      · exact .command i ⟨hm, h1, w, h3, h4⟩ h5
      · exact .ownWord w h1 h3 h4 h5
  | _ =>
    rw [hm] at h'
    refine Or.inr ⟨by simp, ?_⟩
    cases h'
    first
      | exact .tick hm rfl
      | exact .snapshot hm rfl
      | exact .haltInput hm rfl
      | exact .reset hm rfl
      | exact .startUp _ _ hm rfl
      | exact .keyDown _ hm rfl
      | exact .keyUp _ hm rfl

/-! ### What the events leave alone -/

theorem keyDownTurn_block (k : Fin 16) (s : State) : (keyDownTurn k s).block = s.block := by
  unfold keyDownTurn; dsimp only; split <;> rfl

/-- A key going down changes registers, keys and the loop of the host, and nothing else. -/
theorem keyDownTurn_host (k : Fin 16) (s : State) : keyDownTurn k s = s.setHost
    { s.host with v := (keyDownTurn k s).host.v, keys := s.host.keys.set k.val true, loop := (keyDownTurn k s).host.loop } := by
  unfold keyDownTurn; dsimp only; split <;> rfl

/-- What a key going down does to the host depends on the block's `halted` alone. -/
theorem keyDownTurn_blind (k : Fin 16) (s : State) (b : Block) (hb : b.halted = s.block.halted) :
    keyDownTurn k { s with block := b } = { keyDownTurn k s with block := b } := by
  unfold keyDownTurn
  dsimp only
  rw [hb]
  split <;> rfl

/-! ### Runs -/

theorem run_zero (s : State) : Host.Core.run Sys2Proof.core 0 s = .next s := rfl

/-- One step of any machine behind the host's interface, then the rest of the run. -/
theorem core_run_succ (M : Host.Core) {s t : M.State} (k : Nat) (h : M.step s = .next t) : M.run (k + 1) s = M.run k t := by
  rw [Host.Core.run, h]

theorem run_succ {s t : State} (k : Nat) (h : step s = .next t) :
    Host.Core.run Sys2Proof.core (k + 1) s = Host.Core.run Sys2Proof.core k t := core_run_succ Sys2Proof.core k h

end Sys2Proof.Machine
end

