-- ==== Sys2Proof/Tests/Slice0.lean ====
section
/-! SUPPORT. The model's own tests (expected results from spec/95_test_vectors.md or worked out by hand from the rules), the
smoke tests of WellFormed, and for every statement with hypotheses a witness that meets them. -/

namespace Sys2Proof.Tests

open Sys2Proof Sys2Proof.Machine

/-! ### Small states -/

/-- The block and host right after reset with some registers, `I` and a few bytes of RAM set. -/
def stateWith (regs : List (Reg × Byte)) (index : Word) (ram : Memory) : State :=
  { State.reset with host := { regs.foldl (fun h p => h.writeV p.1 p.2) HostState.afterReset with i := index, mem := ram } }

/-- The same machine with some cells of the grid set. -/
def withCells (cells : List (Nat × Nat)) (s : State) : State :=
  { s with block := { s.block with fb := cells.foldl (fun g p => g.set p.1 p.2 true) s.block.fb } }

/-- The same machine with its timers set. -/
def withTimers (dt st : Byte) (s : State) : State := { s with block := { s.block with dt := dt, st := st } }

/-- The same machine, halted by a fault of the host. -/
def haltedState (s : State) : State := { s with block := { s.block with halted := true, faultCause := .hostFault } }

/-- The same machine with turns pending. -/
def withTurns (turns : List Turn) (s : State) : State := { s with schedule := turns }

/-- The same machine with the program counter set. -/
def atPc (pc : Word) (s : State) : State := { s with host := { s.host with pc := pc } }

/-- The state a step answers, or the state before it. -/
def after (s : State) : State :=
  match step s with
  | .next t => t
  | _ => s

/-- The state a command answers, or the state before it. -/
def did (i : Instr) (s : State) : State :=
  match exec i s with
  | .next t => t
  | _ => s

/-! ### WellFormed: a term each check refuses -/

theorem smoke_word_matches_no_row : isCommandWord 0x00E1 = false := by decide
theorem smoke_word_of_the_host : isCommandWord 0x00EE = false := by decide
theorem smoke_command_word : isCommandWord 0xDAB4 = true := by decide
theorem smoke_row_refuses : setStRow.selects 0xF119 = false := by decide
theorem smoke_rom_too_long : romFits (List.replicate 3585 0) = false := by
  rw [romFits, List.length_replicate]; decide
theorem smoke_rom_at_the_bound : romFits (List.replicate 3584 0) = true := by
  rw [romFits, List.length_replicate]; decide

/-! ### Decoding: words written out bit by bit from the patterns of R43 (vectors of 95_test_vectors.md section 2.1) -/

theorem test_decode_clear : decode 0b0000_0000_1110_0000#16 = some .clear := by decide
theorem test_decode_draw : decode 0b1101_1010_1011_0100#16 = some (.draw 10 11 4) := by decide
theorem test_decode_getDt : decode 0b1111_1111_0000_0111#16 = some (.getDt 15) := by decide
theorem test_decode_setDt : decode 0b1111_0001_0001_0101#16 = some (.setDt 1) := by decide
theorem test_decode_setSt : decode 0b1111_1010_0001_1000#16 = some (.setSt 10) := by decide
theorem test_decode_rejects : [0x00E1, 0x00EE, 0x01E0, 0x10E0, 0xF008, 0xF017, 0xF016, 0xF119, 0xF51E, 0xF00A, 0xF329,
    0xF233, 0xF355, 0xF365, 0xE09E, 0xE0A1, 0x6A02, 0x0000, 0xFFFF].map decode = List.replicate 19 none := by decide
theorem test_decodeBytes_bigEndian : decodeBytes [0xD1, 0x23, 0x12] = some (.draw 1 2 3, [0x12]) := by decide
theorem test_decodeBytes_short : decodeBytes [0xD1] = none := by decide
theorem test_decodeTableWord : decodeTableWord 16 0xF515 = some (.setDt 5) := by decide
/-- Property S6: op = 6, X = 0xA, NN = 0x02. -/
theorem test_decodeHost_S6 : decodeHost 0x6A02 = some (.loadImm 10 0x02) := by decide
theorem test_decodeHost_fallthrough : [0x0000, 0x5AB1, 0x8AB8, 0xE0A2, 0xFFFF].map decodeHost = List.replicate 5 none := by decide

/-! ### The commands -/

/-- Vector K1. -/
theorem test_clear_K1 : let t := did .clear (withTimers 7 9 (withCells [(3, 4), (63, 31)] State.reset))
    t.block.fb = Grid.clear ∧ t.block.dt = 7 ∧ t.block.st = 9 ∧ t.host = State.reset.host := by decide
/-- Vector K3. -/
theorem test_clear_K3 : (did .clear (haltedState (withCells [(0, 0)] State.reset))).block.fb.get 0 0 = true := by decide

/-- Vectors V14 (mixed set and cleared cells) and H3 (origin from the old VF, which the result then overwrites). -/
theorem test_draw_V14_H3 :
    (let t := did (.draw 0 0 1) (withCells [(2, 0), (3, 0)] (stateWith [] 0x300 [(0x300, 0x50)]))
     t.block.fb.get 1 0 = true ∧ t.block.fb.get 2 0 = true ∧ t.block.fb.get 3 0 = false ∧ t.host.readV 15 = 0x01) ∧
    (let t := did (.draw 15 0 1) (stateWith [(15, 5), (0, 2)] 0x400 [(0x400, 0x80)])
     t.block.fb = Grid.clear.set 5 2 true ∧ t.host.readV 15 = 0x00) := by decide
/-- Vectors V8 (the footprint check ignores the bits) and H6 (the sprite fetch comes first). -/
theorem test_draw_V8_H6 :
    (let t := did (.draw 1 0 1) (stateWith [(1, 0x39)] 0x300 [])
     t.block.halted = true ∧ t.block.faultCause = .displayOutOfBounds ∧ t.block.fb = Grid.clear) ∧
    (let t := did (.draw 1 0 1) (stateWith [(1, 60)] 0x1000 [])
     t.block.halted = true ∧ t.block.faultCause = .hostFault ∧ t.host.fault = some .memoryOutOfBounds) := by decide

/-- Vector H1: one whole host step. -/
theorem test_getDt_H1 : let t := after ((withTimers 0x2A 0 State.reset).withFetchWord 16 0xF307)
    t.host.readV 3 = 0x2A ∧ t.host.pc = 0x202 ∧ t.block.dt = 0x2A := by decide
/-- Vector H2: one whole host step. -/
theorem test_setDt_H2 : let t := after ((atPc 0x300 (stateWith [(15, 9)] 0 [])).withFetchWord 16 0xFF15)
    t.block.dt = 0x09 ∧ t.host.pc = 0x302 ∧ t.block.st = 0 := by decide
/-- Vector T12. -/
theorem test_setSt_T12 : let t := did (.setSt 0) (withTimers 7 3 State.reset)
    t.block.st = 0 ∧ t.block.beep = false ∧ t.block.dt = 7 := by decide

/-! ### The events and the host's own words -/

/-- Vectors T2 and T7. -/
theorem test_tick_T2_T7 : (after (withTurns [.tick] (withTimers 0xFF 0 State.reset))).block.dt = 0xFE ∧
    (after (withTurns [.tick] (withTimers 2 0 State.reset))).block.st = 0 := by decide
/-- Vector T9. -/
theorem test_tick_T9 : let t := after (withTurns [.tick] (haltedState (withTimers 5 5 State.reset)))
    t.block.dt = 5 ∧ t.block.st = 5 ∧ t.block.beep = true := by decide
theorem test_snapshot : (after (withTurns [.snapshot] (haltedState (withCells [(10, 5)] State.reset)))).presenter =
    some (Grid.clear.set 10 5 true) := by decide
/-- Property S6: VA = 0x02 and the program counter advances by 2. -/
theorem test_host_S6 : let t := after (State.reset.withFetchWord 16 0x6A02)
    t.host.readV 10 = 0x02 ∧ t.host.pc = 0x202 := by decide
/-- Property S8: FX1E with I = 0x0FFF, VX = 0x02 yields I = 0x0001, VF = 1. -/
theorem test_host_S8 : let t := after ((stateWith [(3, 2)] 0x0FFF []).withFetchWord 16 0xF31E)
    t.host.i = 0x0001 ∧ t.host.readV 15 = 1 := by decide
/-- Property S9: a 33rd `2NNN` raises StackOverflow. -/
theorem test_host_S9 :
    let s := State.reset.setHost { State.reset.host with stack := List.replicate 32 0x202 }
    let t := after (s.withFetchWord 16 0x2200)
    t.host.fault = some .stackOverflow ∧ t.block.faultCause = .hostFault ∧ t.host.stack.length = 32 := by decide

/-! ### Witnesses: the hypotheses of every statement can be met together, clause by clause -/

/-- A draw that meets its bounds with equality: origin (56, 17), 15 rows (vector V7). -/
def edgeDraw : State := stateWith [(10, 0x38), (11, 0x11)] 0x0FF1 [(0x0FF1, 0x81)]

/-- A machine about to issue `F307` at the last address a word can be fetched from. -/
def edgeFetch : State := atPc 0x0FFE (stateWith [(3, 9)] 0 [(0x0FFE, 0xF3), (0x0FFF, 0x07)])

theorem issues_of_word {s : State} {w : Word} {i : Instr} (h1 : s.schedule = []) (h2 : s.hostReady)
    (h3 : s.host.fetchWord = some w) (h4 : decode w = some i) : s.issues i :=
  ⟨by simp [State.mover, h1], h2, w, h3, h4⟩

theorem witness_EncodeOfDecodeGivesTheWord : decode 0xDFFF = some (.draw 15 15 15) := by decide
theorem witness_OpcodeMapSelectsTheOperation : decode 0x00E0 = some .clear ∧ clearRow ∈ opcodeMap ∧
    (0x00E0 : Word) &&& clearRow.mask = clearRow.value := by decide
theorem witness_FetchIsBigEndian : edgeFetch.host.pc.toNat + 1 ≤ 4095 ∧ 4095 < (atPc 0x0FFF edgeFetch).host.pc.toNat + 1 := by
  decide
theorem witness_StepRunsTheFetchedWord_command : edgeFetch.hostReady ∧ edgeFetch.hostMovesThen [] ∧
    edgeFetch.host.pc.toNat + 1 ≤ 4095 ∧
    decode (wordOfBytes (edgeFetch.host.mem.read 0x0FFE) (edgeFetch.host.mem.read 0x0FFF)) = some (.getDt 3) := by decide
theorem witness_StepRunsTheFetchedWord_scheduled : (withTurns [.host, .tick] State.reset).hostReady ∧
    (withTurns [.host, .tick] State.reset).hostMovesThen [.tick] ∧ State.reset.host.pc.toNat + 1 ≤ 4095 ∧
    decode (wordOfBytes (State.reset.host.mem.read 0x200) (State.reset.host.mem.read 0x201)) = none := by decide
theorem witness_StepRunsTheFetchedWord_fault : (atPc 0x0FFF edgeFetch).hostReady ∧
    (atPc 0x0FFF edgeFetch).hostMovesThen [] ∧ 4095 < (atPc 0x0FFF edgeFetch).host.pc.toNat + 1 := by decide
theorem witness_FetchFaultHaltsTheBlock : (atPc 0x0FFF edgeFetch).hostReady ∧
    (atPc 0x0FFF edgeFetch).hostMovesThen [] ∧ 4095 < (atPc 0x0FFF edgeFetch).host.pc.toNat + 1 := by decide
theorem witness_WithFetchWordRunsTheWord : (haltedState edgeFetch).host.mem.wf = true ∧
    decodeTableWord 16 0xF307 = some (.getDt 3) := by decide
/-- One word of each command at a program counter where it can be issued. -/
theorem witness_CommandsAdvancePcByTwo : edgeFetch.issues (.getDt 3) ∧ (State.reset.withFetchWord 16 0x00E0).issues .clear ∧
    (State.reset.withFetchWord 16 0xDAB4).issues (.draw 10 11 4) ∧ (State.reset.withFetchWord 16 0xF115).issues (.setDt 1) ∧
    (State.reset.withFetchWord 16 0xFA18).issues (.setSt 10) :=
  ⟨issues_of_word (w := 0xF307) rfl (by decide) (by decide) (by decide),
    issues_of_word (w := 0x00E0) rfl (by decide) (by decide) (by decide),
    issues_of_word (w := 0xDAB4) rfl (by decide) (by decide) (by decide),
    issues_of_word (w := 0xF115) rfl (by decide) (by decide) (by decide),
    issues_of_word (w := 0xFA18) rfl (by decide) (by decide) (by decide)⟩
theorem witness_ClearErasesTheGrid : (withCells [(0, 0)] State.reset).block.halted = false := rfl
theorem witness_DrawXorsTheSprite : edgeDraw.block.halted = false ∧ edgeDraw.host.spriteReadable 15 ∧
    edgeDraw.host.drawFits 10 11 15 := by decide
theorem witness_DrawXorsTheSprite_noRows : (stateWith [(0, 0xFF)] 0xFFFF []).host.spriteReadable 0 ∧
    (stateWith [(0, 0xFF)] 0xFFFF []).host.drawFits 0 1 0 := by decide
theorem witness_DrawReportsCollisionInVF : (withCells [(56, 17)] edgeDraw).block.halted = false ∧
    (withCells [(56, 17)] edgeDraw).host.spriteReadable 15 ∧ (withCells [(56, 17)] edgeDraw).host.drawFits 10 11 15 := by decide
theorem witness_DrawWithoutCollisionClearsVF : edgeDraw.block.halted = false ∧ edgeDraw.host.spriteReadable 15 ∧
    edgeDraw.host.drawFits 10 11 15 ∧ ∀ cx cy, SpriteBitSet edgeDraw.config.spriteMsbFirst
      ((edgeDraw.host.readV 10).toNat % 64) ((edgeDraw.host.readV 11).toNat % 32) (edgeDraw.host.spriteInRam 15) cx cy →
      edgeDraw.block.fb.get cx cy = false :=
  ⟨by decide, by decide, by decide, fun cx cy _ => get_clear cx cy⟩
theorem witness_DrawLeavesTheRest : edgeDraw.block.halted = false ∧ edgeDraw.host.spriteReadable 15 ∧
    edgeDraw.host.drawFits 10 11 15 := by decide
theorem witness_DrawPutsBitSevenAtTheOrigin : edgeDraw.config.spriteMsbFirst = true ∧ edgeDraw.block.halted = false ∧
    edgeDraw.block.fb = Grid.clear ∧ edgeDraw.host.spriteReadable 1 ∧ edgeDraw.host.drawFits 10 11 1 := by decide
theorem witness_DrawOutsideTheGridHalts_right : (stateWith [(1, 0x39)] 0x300 []).block.halted = false ∧
    (stateWith [(1, 0x39)] 0x300 []).host.spriteReadable 1 ∧ 0 < (1 : Fin 16).val ∧
    56 < ((stateWith [(1, 0x39)] 0x300 []).host.readV 1).toNat % 64 := by decide
theorem witness_DrawOutsideTheGridHalts_bottom : (stateWith [(1, 0x12)] 0x300 []).block.halted = false ∧
    (stateWith [(1, 0x12)] 0x300 []).host.spriteReadable 15 ∧ 0 < (15 : Fin 16).val ∧
    32 < ((stateWith [(1, 0x12)] 0x300 []).host.readV 1).toNat % 32 + (15 : Fin 16).val := by decide
theorem witness_SpriteFetchFaultComesFirst : (stateWith [] 0x0FFE []).block.halted = false ∧ 0 < (3 : Fin 16).val ∧
    4096 < (stateWith [] 0x0FFE []).host.i.toNat + (3 : Fin 16).val := by decide
theorem witness_SameDrawTwiceRestoresTheGrid : edgeDraw.block.halted = false ∧ edgeDraw.host.spriteReadable 1 ∧
    edgeDraw.host.drawFits 10 11 1 ∧ exec (.draw 10 11 1) edgeDraw = .next (did (.draw 10 11 1) edgeDraw) ∧
    (did (.draw 10 11 1) edgeDraw).host.readV 10 = edgeDraw.host.readV 10 ∧
    (did (.draw 10 11 1) edgeDraw).host.readV 11 = edgeDraw.host.readV 11 :=
  ⟨by decide, by decide, by decide, rfl, by decide, by decide⟩
theorem witness_DisjointDrawsCommute : State.reset.block.halted = false ∧ footprintInside (0 % 64) (0 % 32) 1 = true ∧
    footprintInside (8 % 64) (0 % 32) 1 = true ∧
    ∀ cx cy, ¬ (SpriteBitSet true (0 % 64) (0 % 32) [0xFF] cx cy ∧ SpriteBitSet true (8 % 64) (0 % 32) [0xFF] cx cy) := by
  refine ⟨rfl, by decide, by decide, ?_⟩
  rintro cx cy ⟨⟨r, c, -, hc, h1, -⟩, ⟨r', c', -, -, h2, -⟩⟩
  omega
theorem witness_GetDtReadsTheDelayTimer : (withTimers 1 0 edgeFetch).block.halted = false ∧
    0 < (withTimers 1 0 edgeFetch).block.dt.toNat := by decide
theorem witness_SetDtLoadsTheDelayTimer : edgeFetch.block.halted = false := rfl
theorem witness_SetStLoadsTheSoundTimer : edgeFetch.block.halted = false := rfl
theorem witness_TickCountsBothTimersDown : (withTurns [.tick] (withTimers 1 0 State.reset)).block.halted = false ∧
    (withTurns [.tick] (withTimers 1 0 State.reset)).schedule = [.tick] ∧
    0 < (withTurns [.tick] (withTimers 1 0 State.reset)).block.dt.toNat ∧
    (withTurns [.tick] (withTimers 1 0 State.reset)).block.st = 0 := by decide
theorem witness_TicksReachTheFloorAndStay : (withTurns [.tick, .tick, .host] State.reset).block.halted = false ∧
    (withTurns [.tick, .tick, .host] State.reset).schedule = List.replicate 2 .tick ++ [.host] := by decide
theorem witness_BeepFollowsTheSoundTimer : ∃ t, step (withTurns [.tick] (withTimers 0 1 State.reset)) = .next t ∧
    t.block.beep ≠ (withTurns [.tick] (withTimers 0 1 State.reset)).block.beep := ⟨_, rfl, by decide⟩
theorem witness_BeepFollowsTheSoundTimer_run : (withTurns [.tick] (withTimers 0 1 State.reset)).block.halted = false ∧
    (withTurns [.tick] (withTimers 0 1 State.reset)).schedule = List.replicate 1 .tick ++ [] := by decide
theorem witness_SoundTimerIsInvisibleToTheHost : step (haltedState State.reset) = .fault .halted ∧
    ∃ t, step edgeFetch = .next t := ⟨rfl, _, rfl⟩
theorem witness_TimersMoveOnlyByLoadsAndTicks : (∃ t, step edgeFetch = .next t ∧ edgeFetch.mover = .host) ∧
    ∃ t, step (withTurns [.tick] State.reset) = .next t ∧ (withTurns [.tick] State.reset).mover = .tick :=
  ⟨⟨_, rfl, rfl⟩, ⟨_, rfl, rfl⟩⟩
theorem witness_GridWrittenOnlyByDisplayCommands : ∃ t, step ((withCells [(0, 0)] State.reset).withFetchWord 16 0x00E0) =
    .next t ∧ t.block.fb ≠ ((withCells [(0, 0)] State.reset).withFetchWord 16 0x00E0).block.fb := ⟨_, rfl, by decide⟩
theorem witness_GridReachesTheHostOnlyThroughVF : step (haltedState State.reset) = .fault .halted ∧
    ∃ t, step (edgeDraw.withFetchWord 16 0xDAB1) = .next t := ⟨rfl, _, rfl⟩
theorem witness_SnapshotCopiesTheGrid : (withTurns [.snapshot] (haltedState State.reset)).schedule = [.snapshot] ∧
    ∃ t, step (withTurns [.tick] State.reset) = .next t ∧ (withTurns [.tick] State.reset).mover ≠ .snapshot ∧
      ∀ rom font, (withTurns [.tick] State.reset).mover ≠ .startUp rom font :=
  ⟨rfl, _, rfl, by decide, fun _ _ h => by cases h⟩
theorem witness_SetupCommandsFixTheBlock : (withCells [(9, 9)] (withTimers 3 4 State.reset)).block.halted = false := rfl
theorem witness_ResetTurnClearsTheBlock : (withTurns [.reset] (haltedState State.reset)).schedule = [.reset] ∧
    (withTurns [.reset] (haltedState State.reset)).config = Config.default := ⟨rfl, rfl⟩
theorem witness_HaltInputKeepsTheFirstCause : (withTurns [.haltInput] State.reset).schedule = [.haltInput] ∧
    (withTurns [.haltInput] State.reset).block.halted = false ∧
    (withTurns [.haltInput] (haltedState State.reset)).schedule = [.haltInput] ∧
    (withTurns [.haltInput] (haltedState State.reset)).block.halted = true := ⟨rfl, rfl, rfl, rfl⟩
theorem witness_HaltedBlockIgnoresCommands : (haltedState State.reset).block.halted = true := rfl
theorem witness_HaltedStateIsFrozen : (haltedState State.reset).block.halted = true ∧ (haltedState State.reset).schedule = [] ∧
    (withTurns [.tick] (haltedState State.reset)).schedule = [.tick] ∧ Turn.tick ≠ .reset ∧
    ∀ rom font, Turn.tick ≠ .startUp rom font := ⟨rfl, rfl, rfl, by decide, fun _ _ h => by cases h⟩
/-- A machine whose ROM did not load. -/
def unloadedState : State := State.reset.setHost { State.reset.host with loop := .notStarted, fault := some .romLoadFailure }

theorem witness_OnlyResetLeavesTheHaltedState : (∀ turn ∈ (withTurns [.tick] (haltedState edgeFetch)).schedule,
    turn ≠ .reset ∧ ∀ rom font, turn ≠ .startUp rom font) ∧
    (∃ t, Host.Core.run Sys2Proof.core 1 (withTurns [.tick] (haltedState edgeFetch)) = .next t) ∧
    (haltedState edgeFetch).block.halted = true ∧ unloadedState.host.loop = .notStarted ∧
    ∃ t, Host.Core.run Sys2Proof.core 1 (withTurns [.tick] unloadedState) = .next t :=
  ⟨by simp [withTurns], ⟨_, rfl⟩, rfl, rfl, _, rfl⟩
theorem witness_CommandsCompleteOrHaltWithoutEffect : State.reset.block.halted = false ∧ decodeHost 0x0000 = none := by decide
theorem witness_HostWordsLeaveTheBlockAlone : State.reset.block.halted = false := rfl
theorem witness_CommandsFrameTheHost : ∃ t, exec (.draw 10 11 15) edgeDraw = .next t := ⟨_, rfl⟩
theorem witness_StepKeepsTheInvariant : edgeFetch.Inv ∧ ∃ t, step edgeFetch = .next t :=
  ⟨⟨by decide, by decide, by decide⟩, _, rfl⟩
theorem witness_StepNeverWritesTheParameters : ∃ t, step edgeFetch = .next t := ⟨_, rfl⟩
theorem witness_CommandGoesBeforeACoincidentTick : edgeFetch.schedule = [] ∧ edgeFetch.issues (.getDt 3) ∧
    (State.reset.withFetchWord 16 0xF315).schedule = [] ∧ (State.reset.withFetchWord 16 0xF315).issues (.setDt 3) ∧
    (State.reset.withFetchWord 16 0xF318).schedule = [] ∧ (State.reset.withFetchWord 16 0xF318).issues (.setSt 3) :=
  ⟨rfl, issues_of_word (w := 0xF307) rfl (by decide) (by decide) (by decide), rfl,
    issues_of_word (w := 0xF315) rfl (by decide) (by decide) (by decide), rfl,
    issues_of_word (w := 0xF318) rfl (by decide) (by decide) (by decide)⟩
/-- A draw that faults (origin row 31, two rows) with a TICK at its instant. -/
theorem witness_CommandGoesBeforeACoincidentTick_fault :
    let s := (stateWith [(1, 31)] 0x300 []).withFetchWord 16 0xD112
    s.schedule = [] ∧ s.issues (.draw 1 1 2) ∧ ∃ t, step s = .next t ∧ t.block.halted = true :=
  ⟨rfl, issues_of_word (w := 0xD112) rfl (by decide) (by decide) (by decide), _, rfl, by decide⟩
theorem witness_StartUpLoadsRomAndFont :
    (withTurns [.startUp [0x00, 0xE0] (Vector.replicate 80 0xFF)] State.reset).schedule =
      [.startUp [0x00, 0xE0] (Vector.replicate 80 0xFF)] ∧ [(0x00 : Byte), 0xE0].length ≤ 4096 - 0x200 := by decide
theorem witness_RomLoadFailureStartsNothing :
    (withTurns [.startUp (List.replicate 3585 0) (Vector.replicate 80 0)] State.reset).schedule =
      [.startUp (List.replicate 3585 0) (Vector.replicate 80 0)] ∧
    4096 - 0x200 < (List.replicate 3585 (0 : Byte)).length := ⟨rfl, by rw [List.length_replicate]; decide⟩

/-- A safe run; a run to a faulted end, in both ways, with no turn left; a ROM that is too long. -/
theorem witness_SafeRunsEndWhereTheMachineGoesOn : RunsSafely 3 (withTurns [.tick, .snapshot] edgeFetch) ∧
    (∀ s ∈ [haltedState State.reset, unloadedState], Host.Core.run Sys2Proof.core 0 s = .next s ∧ ¬ RunsSafely 0 s ∧
      s.schedule = []) ∧
    4096 - 0x200 < (List.replicate 3585 (0 : Byte)).length := by
  refine ⟨⟨_, rfl, by decide⟩, ?_, by rw [List.length_replicate]; decide⟩
  simp only [List.mem_cons, List.not_mem_nil, or_false]
  rintro s (rfl | rfl)
  · exact ⟨rfl, fun ⟨_, h, hf⟩ => by cases h; exact hf (Or.inl rfl), rfl⟩
  · exact ⟨rfl, fun ⟨_, h, hf⟩ => by cases h; exact hf (Or.inr rfl), rfl⟩

/-- A host parked at a key wait for V3. -/
def parkedState : State := State.reset.setHost { State.reset.host with loop := .parked 3 }

theorem witness_KeyWaitIdlesTheHostOnly : parkedState.block.halted = false ∧ parkedState.host.loop = .parked 3 ∧
    parkedState.schedule = [] ∧ (withTurns [.host] parkedState).schedule = [.host] ∧
    (withTurns [.tick] parkedState).schedule = [.tick] ∧ (withTurns [.keyDown 7] parkedState).schedule = [.keyDown 7] ∧
    parkedState.host.keys[7] = false := by decide

end Sys2Proof.Tests
end

section
/-! Host memory (20_memory.md): the byte order of the instruction fetch. -/
namespace Sys2Proof.Machine

/-- While both addresses are in RAM the fetch answers the two bytes there, joined (R28, R73 step 2). -/
theorem fetchWord_of_le {h : HostState} (hp : h.pc.toNat + 1 ≤ 4095) :
    h.fetchWord = some (wordOfBytes (h.mem.read h.pc.toNat) (h.mem.read (h.pc.toNat + 1))) := by
  rw [fetchWord_eq, if_pos (by omega)]

/-- Nothing is fetched once `pc + 1` is above 4095 (R73 step 1). -/
theorem fetchWord_eq_none_of_lt {h : HostState} (hp : 4095 < h.pc.toNat + 1) : h.fetchWord = none := by
  rw [fetchWord_eq, if_neg (by omega)]

/-- Settles O6: in range the fetch joins the two bytes, and `wordOfBytes` puts its first byte in bits 15 to 8. -/
theorem fetchIsBigEndian : Obligations.FetchIsBigEndian := fun _ =>
  ⟨fun hp => ⟨_, fetchWord_of_le hp, wordOfBytes_toNat _ _⟩, fetchWord_eq_none_of_lt⟩

end Sys2Proof.Machine
end

section
/-! The encoding (30_encoding.md): the fields of a word by bit position, and the rows of the opcode map as the decoder's
answers. -/
namespace Sys2Proof

@[simp] theorem fieldX_val (w : Word) : (fieldX w).val = w.toNat / 256 % 16 := nibble_val w 8

@[simp] theorem fieldY_val (w : Word) : (fieldY w).val = w.toNat / 16 % 16 := nibble_val w 4

@[simp] theorem fieldN_val (w : Word) : (fieldN w).val = w.toNat % 16 := by
  rw [fieldN, nibble_val, Nat.pow_zero, Nat.div_one]

/-- Settles O5: each field is a quotient and remainder of the word's value, and the word has 16 bits. -/
theorem fieldsSplitTheWord : Obligations.FieldsSplitTheWord := by
  intro w
  rw [fieldNN_toNat, fieldNNN_toNat, nibble_val, fieldX_val, fieldY_val, fieldN_val]
  refine ⟨?_, ?_, ?_⟩ <;> omega

/-- A row selects a word iff "`(w AND mask) = match`" (R43). -/
theorem OpcodeRow.selects_iff (r : OpcodeRow) (w : Word) : r.selects w = true ↔ w &&& r.mask = r.value := beq_iff_eq

/-- A word decodes to an instruction only when that instruction's row selects the word. -/
theorem selects_row_of_decode {w : Word} {i : Instr} (h : decode w = some i) : i.row.selects w = true := by
  unfold decode at h
  split_ifs at h with hclear hdraw hgetDt hsetDt hsetSt <;> cases h <;> assumption

/-! What the decoder answers when a row selects the word. Each uses that no row tested earlier selects it too. -/

theorem decode_of_clearRow {w : Word} (h : clearRow.selects w = true) : decode w = some .clear := if_pos h

theorem decode_of_drawRow {w : Word} (h : drawRow.selects w = true) :
    decode w = some (.draw (fieldX w) (fieldY w) (fieldN w)) := by
  rw [drawRow_selects] at h
  rw [decode_eq, if_neg (by omega), if_pos h]

theorem decode_of_getDtRow {w : Word} (h : getDtRow.selects w = true) : decode w = some (.getDt (fieldX w)) := by
  rw [getDtRow_selects] at h
  rw [decode_eq, if_neg (by omega), if_neg (by omega), if_pos h]

theorem decode_of_setDtRow {w : Word} (h : setDtRow.selects w = true) : decode w = some (.setDt (fieldX w)) := by
  rw [setDtRow_selects] at h
  rw [decode_eq, if_neg (by omega), if_neg (by omega), if_neg (by omega), if_pos h]

theorem decode_of_setStRow {w : Word} (h : setStRow.selects w = true) : decode w = some (.setSt (fieldX w)) := by
  rw [setStRow_selects] at h
  rw [decode_eq, if_neg (by omega), if_neg (by omega), if_neg (by omega), if_neg (by omega), if_pos h]

/-- A row of the map that selects a word is the row of what the word decodes to. -/
theorem decode_row_of_selects {w : Word} {r : OpcodeRow} (hr : r ∈ opcodeMap) (h : r.selects w = true) :
    (decode w).map Instr.row = some r := by
  simp only [opcodeMap, List.mem_cons, List.not_mem_nil, or_false] at hr
  obtain rfl | rfl | rfl | rfl | rfl := hr
  · rw [decode_of_clearRow h]; rfl
  · rw [decode_of_drawRow h]; rfl
  · rw [decode_of_getDtRow h]; rfl
  · rw [decode_of_setDtRow h]; rfl
  · rw [decode_of_setStRow h]; rfl

theorem Instr.row_mem_opcodeMap (i : Instr) : i.row ∈ opcodeMap := by
  cases i <;> simp [Instr.row, opcodeMap]

/-- The rows of the map are disjoint: both would be the row of the one instruction the word decodes to. -/
theorem opcodeMap_disjoint {w : Word} {r r' : OpcodeRow} (hr : r ∈ opcodeMap) (hr' : r' ∈ opcodeMap)
    (h : r.selects w = true) (h' : r'.selects w = true) : r = r' :=
  Option.some.inj ((decode_row_of_selects hr h).symm.trans (decode_row_of_selects hr' h'))

theorem decode_eq_none_iff (w : Word) : decode w = none ↔ ∀ r ∈ opcodeMap, ¬ r.selects w = true := by
  constructor
  · intro hnone r hr h
    have := decode_row_of_selects hr h
    rw [hnone] at this
    cases this
  · intro hno
    rw [Option.eq_none_iff_forall_ne_some]
    exact fun i h => hno i.row i.row_mem_opcodeMap (selects_row_of_decode h)

/-- The operands of a decoded instruction are the fields of its word. -/
theorem decode_some_cases {w : Word} {i : Instr} (h : decode w = some i) :
    i = .clear ∨ i = .draw (fieldX w) (fieldY w) (fieldN w) ∨ i = .getDt (fieldX w) ∨ i = .setDt (fieldX w) ∨
      i = .setSt (fieldX w) := by
  unfold decode at h
  split_ifs at h <;> cases h <;> simp

/-- Settles O4: one direction of each `↔` is `selects_row_of_decode`, the other the decoder's answer for that row. -/
theorem opcodeMapSelectsTheOperation : Obligations.OpcodeMapSelectsTheOperation := by
  refine ⟨fun w => ⟨?_, ?_, ?_, ?_, ?_, ?_, fun i => decode_some_cases⟩, fun w r hr r' hr' h h' => ?_⟩
  · exact .trans ⟨selects_row_of_decode, decode_of_clearRow⟩ (clearRow.selects_iff w)
  · exact .trans ⟨selects_row_of_decode, decode_of_drawRow⟩ (drawRow.selects_iff w)
  · exact .trans ⟨selects_row_of_decode, decode_of_getDtRow⟩ (getDtRow.selects_iff w)
  · exact .trans ⟨selects_row_of_decode, decode_of_setDtRow⟩ (setDtRow.selects_iff w)
  · exact .trans ⟨selects_row_of_decode, decode_of_setStRow⟩ (setStRow.selects_iff w)
  · simpa only [OpcodeRow.selects_iff] using decode_eq_none_iff w
  · exact opcodeMap_disjoint hr hr' ((r.selects_iff w).mpr h) ((r'.selects_iff w).mpr h')

end Sys2Proof
end

section
/-! The display family (40_display_ops.md): CLEAR, SNAPSHOT, and what the host's turn leaves alone outside the block and the
host. -/
namespace Sys2Proof.Machine

/-- CLEAR's word is 0x00E0 and no other: its row's mask keeps all 16 bits (R43, R50). -/
theorem decode_clear_iff (w : Word) : decode w = some .clear ↔ w = 0x00E0 := by
  have hrow : decode w = some .clear ↔ clearRow.selects w = true := ⟨selects_row_of_decode, decode_of_clearRow⟩
  rw [hrow, clearRow_selects, ← BitVec.toNat_inj]
  rfl

/-- Settles O11: the second CLEAR finds the cleared grid, so it answers the state it ran on. -/
theorem clearErasesTheGrid : Obligations.ClearErasesTheGrid := by
  refine ⟨decode_clear_iff, fun s hs => ⟨_, execClear_running hs, fun x y _ _ => get_clear x y, rfl, ?_⟩⟩
  exact execClear_running (s := { s with block := { s.block with fb := Grid.clear } }) hs

/-- A command changes the block and the host, and nothing outside them. -/
theorem CommandEffect.eq {s t : State} {i : Instr} (h : CommandEffect s i t) :
    t = { s with block := t.block, host := t.host } := by
  cases h <;> rfl

/-- A host word changes the host, the block by the halt input, and the count of free values. -/
theorem execHostWord_eq (w : Word) (s : State) :
    execHostWord w s = { s with
      block := (execHostWord w s).block, host := (execHostWord w s).host, freeDraws := (execHostWord w s).freeDraws } := by
  rcases execHostWord_cases w s with hown | ⟨f, hf⟩
  · rw [hown.eq]
  · rw [hf]; rfl

/-- The host's turn leaves the presenter's copy, the turns after it and the parameters alone. -/
theorem HostEffect.eq {s t : State} (h : HostEffect s t) :
    t = { s.popTurn with block := t.block, host := t.host, freeDraws := t.freeDraws } := by
  cases h with
  | idle ht => rw [ht]
  | fetchFault _ _ ht => rw [ht]; rfl
  | command i _ ht => rw [ht.eq]; rfl
  | ownWord w _ _ _ ht => rw [ht, execHostWord_eq]; rfl

/-- The presenter's copy changes only by a SNAPSHOT or a start-up (R22, R56). -/
theorem step_presenter {s t : State} (h : step s = .next t) (hsnap : s.mover ≠ .snapshot)
    (hstart : ∀ rom font, s.mover ≠ .startUp rom font) : t.presenter = s.presenter := by
  rcases step_cases h with ⟨-, hhost⟩ | ⟨-, hevent⟩
  · rw [hhost.eq, popTurn_presenter]
  · cases hevent with
    | snapshot hm _ => exact absurd hm hsnap
    | startUp rom font hm _ => exact absurd hm (hstart rom font)
    | tick _ ht | haltInput _ ht | reset _ ht => rw [ht, setBlock_presenter, popTurn_presenter]
    | keyDown k _ ht => rw [ht, keyDownTurn_host, setHost_presenter, popTurn_presenter]
    | keyUp k _ ht => rw [ht, keyUpTurn, setHost_presenter, popTurn_presenter]

/-- Settles O31: the copy is the grid itself, and no turn but a SNAPSHOT or a start-up writes it. -/
theorem snapshotCopiesTheGrid : Obligations.SnapshotCopiesTheGrid :=
  ⟨fun s _ hs => ⟨_, s.block.fb, step_cons hs, rfl, fun _ _ _ _ => rfl, rfl⟩, fun _ _ => step_presenter⟩

end Sys2Proof.Machine
end

section
/-! The timer words (41_timer_ops.md): FX07, FX15 and FX18 by their fields, and what each command does on a running block. -/
namespace Sys2Proof

/-- The opcode nibble and the low byte of a word as arithmetic on its value. -/
theorem opcodeF_low_iff (w : Word) (low : Byte) :
    (nibble w 12 = 0xF ∧ fieldNN w = low) ↔ (w.toNat / 4096 = 0xF ∧ w.toNat % 256 = low.toNat) := by
  have hop : nibble w 12 = 0xF ↔ w.toNat / 4096 % 16 = 0xF := Fin.ext_iff
  rw [hop, ← BitVec.toNat_inj, fieldNN_toNat]
  omega

/-- A family of instructions with one operand X whose row is `F` with a low byte: exactly the words with these fields decode to
it. -/
theorem decode_eq_some_iff_of_timerRow {mk : Reg → Instr} {r : OpcodeRow} {low : Byte} {w : Word} (hmk : mk.Injective)
    (hrow : ∀ x, (mk x).row = r) (hsel : r.selects w = true ↔ w.toNat / 4096 = 0xF ∧ w.toNat % 256 = low.toNat)
    (hdec : r.selects w = true → decode w = some (mk (fieldX w))) (x : Reg) :
    decode w = some (mk x) ↔ nibble w 12 = 0xF ∧ fieldNN w = low ∧ fieldX w = x := by
  rw [← and_assoc, opcodeF_low_iff, ← hsel]
  constructor
  · intro h
    have hs : r.selects w = true := hrow x ▸ selects_row_of_decode h
    exact ⟨hs, hmk (Option.some.inj ((hdec hs).symm.trans h))⟩
  · rintro ⟨hs, rfl⟩
    exact hdec hs

theorem decode_getDt_iff (w : Word) (x : Reg) :
    decode w = some (.getDt x) ↔ nibble w 12 = 0xF ∧ fieldNN w = 0x07 ∧ fieldX w = x :=
  decode_eq_some_iff_of_timerRow (r := getDtRow) (low := 0x07) (fun _ _ => Instr.getDt.inj) (fun _ => rfl)
    (getDtRow_selects w) decode_of_getDtRow x

theorem decode_setDt_iff (w : Word) (x : Reg) :
    decode w = some (.setDt x) ↔ nibble w 12 = 0xF ∧ fieldNN w = 0x15 ∧ fieldX w = x :=
  decode_eq_some_iff_of_timerRow (r := setDtRow) (low := 0x15) (fun _ _ => Instr.setDt.inj) (fun _ => rfl)
    (setDtRow_selects w) decode_of_setDtRow x

theorem decode_setSt_iff (w : Word) (x : Reg) :
    decode w = some (.setSt x) ↔ nibble w 12 = 0xF ∧ fieldNN w = 0x18 ∧ fieldX w = x :=
  decode_eq_some_iff_of_timerRow (r := setStRow) (low := 0x18) (fun _ _ => Instr.setSt.inj) (fun _ => rfl)
    (setStRow_selects w) decode_of_setStRow x

end Sys2Proof

namespace Sys2Proof.Machine

/-- After one TICK a running block's `DT` is the one before counted down, which is what a second GETDT returns. -/
theorem execGetDt_after_tick {s : State} (x : Reg) (hs : s.block.halted = false) :
    execGetDt x { s with block := s.block.tick } =
      .next { s with block := s.block.tick, host := s.host.writeV x (countDown s.block.dt) } := by
  rw [tick_of_running hs]
  exact execGetDt_running hs

/-- Settles O21: GETDT is a register write of `DT`, and the GETDT after a TICK writes `DT` counted down. -/
theorem getDtReadsTheDelayTimer : Obligations.GetDtReadsTheDelayTimer := by
  refine ⟨decode_getDt_iff, fun s x hs => ⟨_, execGetDt_running hs, readV_writeV_self _ _ _,
    fun r hr => readV_writeV_of_ne _ _ _ hr, rfl, fun hdt => ⟨_, execGetDt_after_tick x hs, ?_⟩⟩⟩
  simp only [readV_writeV_self, countDown_toNat]
  omega

/-- Settles O22: SETDT's outcome on a running block names V[X] and nothing of the old `DT`. -/
theorem setDtLoadsTheDelayTimer : Obligations.SetDtLoadsTheDelayTimer :=
  ⟨decode_setDt_iff, fun _ _ hs => execSetDt_running hs⟩

/-- Settles O23: `beep` is computed from the `ST` that SETST has just loaded. -/
theorem setStLoadsTheSoundTimer : Obligations.SetStLoadsTheSoundTimer :=
  ⟨decode_setSt_iff, fun _ _ hs => ⟨_, execSetSt_running hs, rfl, beep_iff _⟩⟩

end Sys2Proof.Machine
end

section
/-! The gate and the timers' writers (R65, R67): what TICKs in a row leave, and which steps write a timer. -/
namespace Sys2Proof.Machine

/-- `k` countdowns are subtraction of `k` with a floor of 0 (R64). -/
theorem countDown_iterate_toNat (k : Nat) (t : Byte) : (countDown^[k] t).toNat = t.toNat - k := by
  induction k with
  | zero => rfl
  | succ k ih => rw [Function.iterate_succ_apply', countDown_toNat, ih, Nat.sub_sub]

/-- The state after `k` TICKs of a running block, with `rest` the turns that are left. -/
def State.afterTicks (k : Nat) (rest : List Turn) (s : State) : State :=
  { s with schedule := rest, block := { s.block with dt := countDown^[k] s.block.dt, st := countDown^[k] s.block.st } }

theorem step_tick {s : State} {rest : List Turn} (hs : s.block.halted = false) (hsch : s.schedule = .tick :: rest) :
    step s = .next (s.afterTicks 1 rest) := by
  rw [step_cons hsch, takeTurn, tick_of_running hs]
  rfl

/-- TICKs in a row count both timers down and change nothing else (R63, R64). -/
theorem run_ticks (k : Nat) : ∀ {s : State} {rest : List Turn}, s.block.halted = false →
    s.schedule = List.replicate k .tick ++ rest → Host.Core.run Sys2Proof.core k s = .next (s.afterTicks k rest) := by
  induction k with
  | zero =>
    rintro s rest - rfl
    rfl
  | succ k ih =>
    intro s rest hs hsch
    rw [run_succ k (step_tick hs hsch)]
    exact ih hs rfl

/-- The timers over one command: each is unchanged, or loaded by its own command (R61, R62). -/
theorem CommandEffect.timers {s t : State} {i : Instr} (h : CommandEffect s i t) :
    (t.block.dt = s.block.dt ∨ ∃ x, i = .setDt x ∧ t.block.dt = s.host.readV x) ∧
      (t.block.st = s.block.st ∨ ∃ x, i = .setSt x ∧ t.block.st = s.host.readV x) := by
  cases h with
  | setDt x hs => exact ⟨.inr ⟨x, rfl, rfl⟩, .inl rfl⟩
  | setSt x hs => exact ⟨.inl rfl, .inr ⟨x, rfl, rfl⟩⟩
  | unreadable => exact ⟨.inl (haltInput_dt _), .inl (haltInput_st _)⟩
  | ignored | clear | drawn | outside | getDt => exact ⟨.inl rfl, .inl rfl⟩

/-- No host word touches a timer (R45, R49). -/
theorem execHostWord_timers (w : Word) (s : State) :
    (execHostWord w s).block.dt = s.block.dt ∧ (execHostWord w s).block.st = s.block.st := by
  rcases execHostWord_cases w s with hown | ⟨f, hf⟩
  · rw [hown.eq]
    exact ⟨rfl, rfl⟩
  · rw [hf]
    exact ⟨haltInput_dt _, haltInput_st _⟩

/-- The timers over the host's turn: each is unchanged, or the host issued its load command (R67). -/
theorem HostEffect.timers {s t : State} (h : HostEffect s t) :
    (t.block.dt = s.block.dt ∨ ∃ x, s.issues (.setDt x) ∧ t.block.dt = s.host.readV x) ∧
      (t.block.st = s.block.st ∨ ∃ x, s.issues (.setSt x) ∧ t.block.st = s.host.readV x) := by
  cases h with
  | idle ht => rw [ht]; exact ⟨.inl rfl, .inl rfl⟩
  | fetchFault _ _ ht => rw [ht]; exact ⟨.inl (haltInput_dt _), .inl (haltInput_st _)⟩
  | command i hi ht =>
    obtain ⟨hdt, hst⟩ := ht.timers
    refine ⟨hdt.imp_right ?_, hst.imp_right ?_⟩ <;> exact fun ⟨x, hx, hload⟩ => ⟨x, hx ▸ hi, hload⟩
  | ownWord w _ _ _ ht =>
    obtain ⟨hdt, hst⟩ := execHostWord_timers w (s.popTurn.setHost s.host.advance)
    rw [ht]
    exact ⟨.inl hdt, .inl hst⟩

/-- The steps that write `ST` (R13, R65): a start-up counts as a reset (R101). -/
theorem step_st_writers {s t : State} (h : step s = .next t) (hne : t.block.st ≠ s.block.st) :
    s.mover = .tick ∨ s.mover = .reset ∨ (∃ rom font, s.mover = .startUp rom font) ∨ ∃ x, s.issues (.setSt x) := by
  rcases step_cases h with ⟨-, hhost⟩ | ⟨-, hevent⟩
  · obtain ⟨x, hx, -⟩ := hhost.timers.2.resolve_left hne
    exact .inr (.inr (.inr ⟨x, hx⟩))
  · cases hevent with
    | tick hm _ => exact .inl hm
    | reset hm _ => exact .inr (.inl hm)
    | startUp rom font hm _ => exact .inr (.inr (.inl ⟨rom, font, hm⟩))
    | snapshot _ ht => exact absurd (by rw [ht]; rfl) hne
    | haltInput _ ht => exact absurd (by rw [ht]; exact haltInput_st _) hne
    | keyDown k _ ht => exact absurd (by rw [ht, keyDownTurn_block, popTurn_block]) hne
    | keyUp k _ ht => exact absurd (by rw [ht]; rfl) hne

/-- Settles O26: `beep` is a function of `ST`, so it changes only where `ST` is written, and `k` TICKs leave `ST` less `k`. -/
theorem beepFollowsTheSoundTimer : Obligations.BeepFollowsTheSoundTimer := by
  refine ⟨beep_iff, fun s t h hchange => step_st_writers h ?_, fun k s rest hs hsch => ⟨_, run_ticks k hs hsch, ?_⟩⟩
  · rcases hchange with hbeep | hst
    · exact fun hst => hbeep (by rw [Block.beep, Block.beep, hst])
    · exact hst
  · rw [beep_iff, State.afterTicks, countDown_iterate_toNat, Nat.sub_pos_iff_lt]

/-- Settles O28: the host's turn writes a timer by its load command alone, and neither turn touches the turns after it. -/
theorem timersMoveOnlyByLoadsAndTicks : Obligations.TimersMoveOnlyByLoadsAndTicks := by
  refine fun s t h => ⟨fun hm => ?_, fun hm => ?_⟩
  · rcases step_cases h with ⟨-, hhost⟩ | ⟨hne, -⟩
    · obtain ⟨hdt, hst⟩ := hhost.timers
      exact ⟨hdt, hst, by rw [hhost.eq, popTurn_schedule]⟩
    · exact absurd hm hne
  · have hturn := step_next h
    rw [hm] at hturn
    cases hturn
    exact ⟨rfl, rfl⟩

end Sys2Proof.Machine
end

section
/-! That no operation returns `ST` to the host (R66): two machines that differ in `ST` alone, side by side. -/
namespace Sys2Proof.Machine

/-- The block with another value of `ST`. -/
def Block.withSt (b : Block) (v : Byte) : Block := { b with st := v }

/-- The machine with another value of `ST`. -/
def State.withSt (s : State) (v : Byte) : State := { s with block := s.block.withSt v }

@[simp] theorem withSt_host (s : State) (v : Byte) : (s.withSt v).host = s.host := rfl
@[simp] theorem withSt_halted (s : State) (v : Byte) : (s.withSt v).block.halted = s.block.halted := rfl

theorem takeFault_withSt (cause : FaultCause) (b : Block) (v : Byte) :
    (b.withSt v).takeFault cause = (b.takeFault cause).withSt v := by
  cases hb : b.halted with
  | true => rw [takeFault_of_halted b _ hb, takeFault_of_halted (b.withSt v) _ hb]
  | false => rw [takeFault_of_running b _ hb, takeFault_of_running (b.withSt v) _ hb]; rfl

theorem haltInput_withSt (b : Block) (v : Byte) : (b.withSt v).haltInput = b.haltInput.withSt v := takeFault_withSt _ b v

theorem hostFatal_withSt (f : HostFault) (s : State) (v : Byte) : (s.withSt v).hostFatal f = (s.hostFatal f).withSt v := by
  unfold State.hostFatal
  rw [State.withSt, haltInput_withSt]
  rfl

/-- The block draws and reports alike whatever `ST` is. -/
theorem draw_withSt (msb : Bool) (xIn yIn : Byte) (rows : List Byte) (b : Block) (v : Byte) :
    (b.withSt v).draw msb xIn yIn rows = ((b.draw msb xIn yIn rows).1.withSt v, (b.draw msb xIn yIn rows).2) := by
  cases hs : b.halted with
  | true => rw [draw_halted hs, draw_halted (b := b.withSt v) hs]
  | false =>
    cases hf : footprintInside (originX xIn) (originY yIn) rows.length with
    | true => simp [Block.draw, Block.withSt, hs, hf]
    | false => rw [draw_outside hs hf, draw_outside (b := b.withSt v) hs hf]; rfl

theorem finishDraw_withSt (r : Block × Option Bool) (s : State) (v : Byte) :
    finishDraw (r.1.withSt v, r.2) (s.withSt v) = (finishDraw r s).withSt v := by
  obtain ⟨b, _ | c⟩ := r <;> rfl

/-- Two outcomes that are next states with equal everything but `ST`. -/
def AlikeButSt (o o' : Host.Outcome State Fault Refusal) : Prop := ∃ t v, o = .next t ∧ o' = .next (t.withSt v)

theorem AlikeButSt.of_eq {t t' : State} {v : Byte} (h : t' = t.withSt v) : AlikeButSt (.next t) (.next t') :=
  ⟨t, v, rfl, congrArg _ h⟩

theorem execDraw_alike {s : State} (x y : Reg) (n : Fin 16) (v : Byte) (hs : s.block.halted = false) :
    AlikeButSt (execDraw x y n s) (execDraw x y n (s.withSt v)) := by
  by_cases hr : s.host.spriteReadable n
  · refine ⟨_, v, execDraw_readable hs hr, ?_⟩
    rw [execDraw_readable (s := s.withSt v) hs hr, ← finishDraw_withSt, ← draw_withSt]
    rfl
  · refine ⟨_, v, execDraw_unreadable hs hr, ?_⟩
    rw [execDraw_unreadable (s := s.withSt v) hs hr, hostFatal_withSt]

/-- No command returns `ST` to the host. -/
theorem exec_alike (i : Instr) (s : State) (v : Byte) : AlikeButSt (exec i s) (exec i (s.withSt v)) := by
  cases hs : s.block.halted with
  | true => exact ⟨s, v, exec_halted hs i, exec_halted (s := s.withSt v) hs i⟩
  | false =>
    cases i with
    | clear => exact ⟨_, v, execClear_running hs, execClear_running (s := s.withSt v) hs⟩
    | draw x y n => exact execDraw_alike x y n v hs
    | getDt x => exact ⟨_, v, execGetDt_running hs, execGetDt_running (s := s.withSt v) hs⟩
    | setDt x => exact ⟨_, v, execSetDt_running hs, execSetDt_running (s := s.withSt v) hs⟩
    | setSt x => exact ⟨_, s.host.readV x, execSetSt_running hs, execSetSt_running (s := s.withSt v) hs⟩

/-- No host word reads `ST`: it does not read the block at all. -/
theorem execHostWord_withSt (w : Word) (s : State) (v : Byte) :
    execHostWord w (s.withSt v) = (execHostWord w s).withSt v := by
  obtain ⟨fatal, hblind⟩ := execHostWord_blind w s
  have hself : execHostWord w s = { execHostWord w s with block := if fatal then s.block.haltInput else s.block } :=
    hblind s.block
  rw [hself]
  refine (hblind (s.block.withSt v)).trans ?_
  cases fatal with
  | true => rw [haltInput_withSt]; rfl
  | false => rfl

theorem hostCycle_alike (s : State) (v : Byte) : AlikeButSt (hostCycle s) (hostCycle (s.withSt v)) := by
  unfold hostCycle
  rw [withSt_host]
  split
  · exact .of_eq (hostFatal_withSt _ s v)
  · split
    · exact exec_alike _ (s.setHost s.host.advance) v
    · exact .of_eq (execHostWord_withSt _ (s.setHost s.host.advance) v)

theorem hostTurn_of_not_ready {s : State} (h : ¬ s.hostReady) : hostTurn s = .next s := by
  unfold hostTurn
  split
  · rfl
  · next hh =>
    split
    · next hl => exact absurd ⟨by simpa using hh, hl⟩ h
    · rfl
    · rfl

theorem hostTurn_alike (s : State) (v : Byte) : AlikeButSt (hostTurn s) (hostTurn (s.withSt v)) := by
  by_cases hr : s.hostReady
  · rw [hostTurn_ready hr, hostTurn_ready (s := s.withSt v) hr]
    exact hostCycle_alike s v
  · exact ⟨s, v, hostTurn_of_not_ready hr, hostTurn_of_not_ready (s := s.withSt v) hr⟩

/-- A TICK counts each machine's own `ST` down and is otherwise the same. -/
theorem tick_withSt (b : Block) (v : Byte) : ∃ w, (b.withSt v).tick = b.tick.withSt w := by
  cases hb : b.halted with
  | true => exact ⟨v, by rw [tick_of_halted hb, tick_of_halted (b := b.withSt v) hb]⟩
  | false => exact ⟨countDown v, by rw [tick_of_running hb, tick_of_running (b := b.withSt v) hb]; rfl⟩

theorem keyDownTurn_withSt (k : Fin 16) (s : State) (v : Byte) : keyDownTurn k (s.withSt v) = (keyDownTurn k s).withSt v := by
  rw [State.withSt, State.withSt, keyDownTurn_block]
  exact keyDownTurn_blind k s _ rfl

/-- Whoever moves, `ST` stays out of everything but `ST`. -/
theorem takeTurn_alike (turn : Turn) (s : State) (v : Byte) : AlikeButSt (takeTurn turn s) (takeTurn turn (s.withSt v)) := by
  cases turn with
  | host => exact hostTurn_alike s v
  | tick =>
    obtain ⟨w, hw⟩ := tick_withSt s.block v
    exact .of_eq (congrArg s.setBlock hw)
  | haltInput => exact .of_eq (congrArg s.setBlock (haltInput_withSt s.block v))
  | snapshot => exact ⟨_, v, rfl, rfl⟩
  | reset => exact ⟨_, s.config.resetST, rfl, rfl⟩
  | startUp rom font => exact ⟨_, s.config.resetST, rfl, rfl⟩
  | keyDown k => exact .of_eq (keyDownTurn_withSt k s v)
  | keyUp k => exact ⟨_, v, rfl, rfl⟩

/-- Where a machine stops depends on its block's `halted` alone. -/
theorem step_fault_of_halted_eq {s : State} {b : Block} {f : Fault} (hb : b.halted = s.block.halted)
    (h : step s = .fault f) : step { s with block := b } = .fault f := by
  rw [step_fault_iff] at h ⊢
  simpa only [hb] using h

/-- A machine that has stepped on had not ended. -/
theorem not_ended_of_step {s t : State} (h : step s = .next t) :
    ¬ (s.schedule = [] ∧ (s.block.halted = true ∨ s.host.loop = .notStarted)) := by
  rintro ⟨hsch, hend⟩
  have hfault : ∃ f, step s = .fault f := by
    cases hs : s.block.halted with
    | true => exact ⟨_, step_fault_iff.mpr ⟨hsch, .inl ⟨hs, rfl⟩⟩⟩
    | false => exact ⟨_, step_fault_iff.mpr ⟨hsch, .inr ⟨hs, hend.resolve_left (by simp [hs]), rfl⟩⟩⟩
  obtain ⟨f, hf⟩ := hfault
  cases h.symm.trans hf

/-- The step lemma of the relation: two machines that differ in `ST` at most do so after a step too. -/
theorem step_withSt {s t : State} (h : step s = .next t) (v : Byte) : ∃ w, step (s.withSt v) = .next (t.withSt w) := by
  obtain ⟨t', w, hturn, hturn'⟩ := takeTurn_alike s.mover s.popTurn v
  cases hturn.symm.trans (step_next h)
  exact ⟨w, step_of_turn (s := s.withSt v) hturn' (not_ended_of_step (s := s) h)⟩

/-- Settles O27: `step_withSt` for the next states, and the stops do not look at the timers. -/
theorem soundTimerIsInvisibleToTheHost : Obligations.SoundTimerIsInvisibleToTheHost := by
  refine fun s v => ⟨fun f h => step_fault_of_halted_eq rfl h, fun t h => ?_⟩
  obtain ⟨w, hw⟩ := step_withSt h v
  exact ⟨t.withSt w, hw, rfl, rfl, rfl⟩

end Sys2Proof.Machine
end

section
/-! The host binding (42_host_binding.md): one host step, by what the fetch answers and what the word decodes to (R73). -/
namespace Sys2Proof.Machine

theorem hostCycle_of_no_word {s : State} (hw : s.host.fetchWord = none) :
    hostCycle s = .next (s.hostFatal .memoryOutOfBounds) := by
  simp only [hostCycle, hw]

theorem hostCycle_of_command {s : State} {w : Word} {i : Instr} (hw : s.host.fetchWord = some w)
    (hi : decode w = some i) : hostCycle s = exec i (s.setHost s.host.advance) := by
  simp only [hostCycle, hw, hi]

theorem hostCycle_of_own_word {s : State} {w : Word} (hw : s.host.fetchWord = some w) (hi : decode w = none) :
    hostCycle s = .next (execHostWord w (s.setHost s.host.advance)) := by
  simp only [hostCycle, hw, hi]

/-- Settles O7: the step is `hostCycle` with the turn used up, and the fetch check and `decode` select its case. -/
theorem stepRunsTheFetchedWord : Obligations.StepRunsTheFetchedWord := by
  intro s rest hready hmoves
  rw [step_host hready hmoves]
  refine ⟨fun hpc => ?_, fun hpc w hw => ?_⟩
  · exact ⟨_, hostCycle_of_no_word (fetchWord_eq_none_of_lt hpc), hostFatal_host _ _, hostFatal_schedule _ _⟩
  · have hfetch : s.host.fetchWord = some w := hw ▸ fetchWord_of_le hpc
    exact ⟨fun _ hi => hostCycle_of_command hfetch hi, fun hi => hostCycle_of_own_word hfetch hi⟩

end Sys2Proof.Machine
end

section
/-! The encoding's round trip (30_encoding.md sections 1 and 2): `decode` after `encode` and `encode` after `decode`. -/
namespace Sys2Proof

/-- The X field of a word of an `F` row: the opcode nibble above it and the low byte below it do not reach it (R41). -/
theorem fieldX_of_toNat {w : Word} {op low : Nat} {x : Reg} (hlow : low < 256)
    (h : w.toNat = op * 0x1000 + low + x.val * 0x100) : fieldX w = x := by
  apply Fin.ext
  rw [fieldX_val, h]
  omega

theorem fieldX_encode_draw (x y : Reg) (n : Fin 16) : fieldX (encode (.draw x y n)) = x := by
  apply Fin.ext
  rw [fieldX_val, encode_draw_toNat]
  omega

theorem fieldY_encode_draw (x y : Reg) (n : Fin 16) : fieldY (encode (.draw x y n)) = y := by
  apply Fin.ext
  rw [fieldY_val, encode_draw_toNat]
  omega

theorem fieldN_encode_draw (x y : Reg) (n : Fin 16) : fieldN (encode (.draw x y n)) = n := by
  apply Fin.ext
  rw [fieldN_val, encode_draw_toNat]
  omega

/-- The word of an instruction lies in the instruction's own row, and its fields are the operands. -/
theorem decode_encode (i : Instr) : decode (encode i) = some i := by
  cases i with
  | clear => exact decode_of_clearRow Laws.InRow.clear
  | draw x y n =>
    rw [decode_of_drawRow (Laws.InRow.draw x y n), fieldX_encode_draw, fieldY_encode_draw, fieldN_encode_draw]
  | getDt x =>
    rw [decode_of_getDtRow (Laws.InRow.getDt x), fieldX_of_toNat (op := 0xF) (low := 0x07) (by decide) (encode_getDt_toNat x)]
  | setDt x =>
    rw [decode_of_setDtRow (Laws.InRow.setDt x), fieldX_of_toNat (op := 0xF) (low := 0x15) (by decide) (encode_setDt_toNat x)]
  | setSt x =>
    rw [decode_of_setStRow (Laws.InRow.setSt x), fieldX_of_toNat (op := 0xF) (low := 0x18) (by decide) (encode_setSt_toNat x)]

/-- Decoding bytes that begin with a word's two bytes is decoding the word (R28). -/
theorem decodeBytes_of_word (w : Word) (rest : List Byte) :
    decodeBytes (firstByte w :: secondByte w :: rest) = (decode w).map (fun i => (i, rest)) := by
  rw [decodeBytes, wordOfBytes_bytes]

/-- Settles O2: the byte level is the word level, since a word's two bytes make the word again. -/
theorem decodeOfEncodeGivesTheInstruction : Obligations.DecodeOfEncodeGivesTheInstruction := by
  refine fun i rest => ⟨decode_encode i, (decodeBytes_of_word (encode i) rest).trans ?_⟩
  rw [decode_encode, Option.map_some]

/-- Settles O3: the row fixes the bits outside the fields, and the operands are the fields. -/
theorem encodeOfDecodeGivesTheWord : Obligations.EncodeOfDecodeGivesTheWord := by
  intro w i h
  have hrow := selects_row_of_decode h
  apply BitVec.eq_of_toNat_eq
  obtain rfl | rfl | rfl | rfl | rfl := decode_some_cases h
  · exact ((clearRow_selects w).mp hrow).symm
  · have := (drawRow_selects w).mp hrow
    rw [encode_draw_toNat, fieldX_val, fieldY_val, fieldN_val]
    omega
  · have := (getDtRow_selects w).mp hrow
    rw [encode_getDt_toNat, fieldX_val]
    omega
  · have := (setDtRow_selects w).mp hrow
    rw [encode_setDt_toNat, fieldX_val]
    omega
  · have := (setStRow_selects w).mp hrow
    rw [encode_setSt_toNat, fieldX_val]
    omega

/-- Settles O1: the ten words, evaluated. -/
theorem commandWordsDecodeAsWritten : Obligations.CommandWordsDecodeAsWritten := by
  unfold Obligations.CommandWordsDecodeAsWritten
  decide

end Sys2Proof
end

section
/-! The invariant (10_state.md sections 1 and 3): each operation of a step keeps it. -/
namespace Sys2Proof.Machine

theorem takeFault_statusAgrees {cause : FaultCause} {b : Block} (hcause : cause ≠ .none) (h : b.statusAgrees) :
    (b.takeFault cause).statusAgrees := by
  cases hb : b.halted with
  | true => rwa [takeFault_of_halted b _ hb]
  | false => rw [takeFault_of_running b _ hb]; exact iff_of_false hcause nofun

theorem haltInput_statusAgrees {b : Block} (h : b.statusAgrees) : b.haltInput.statusAgrees :=
  takeFault_statusAgrees (by decide) h

/-- Changing the block keeps the invariant when the new block's status agrees with itself. -/
theorem State.Inv.setBlock {s : State} (h : s.Inv) {b : Block} (hb : b.statusAgrees) : (s.setBlock b).Inv :=
  ⟨hb, h.memory, h.stack⟩

/-- Changing the host outside RAM and stack keeps the invariant. -/
theorem State.Inv.setHost {s : State} (h : s.Inv) {host : HostState} (hmem : host.mem = s.host.mem)
    (hstack : host.stack = s.host.stack) : (s.setHost host).Inv :=
  ⟨h.status, hmem ▸ h.memory, hstack ▸ h.stack⟩

theorem State.Inv.popTurn {s : State} (h : s.Inv) : s.popTurn.Inv := ⟨h.status, h.memory, h.stack⟩

theorem State.Inv.advance {s : State} (h : s.Inv) : (s.setHost s.host.advance).Inv := h.setHost rfl rfl

theorem State.Inv.hostFatal {s : State} (h : s.Inv) (f : HostFault) : (s.hostFatal f).Inv :=
  (h.setBlock (haltInput_statusAgrees h.status)).setHost rfl rfl

/-- No command writes RAM or stack, and a draw that faults writes `halted` and its cause together. -/
theorem CommandEffect.inv {s t : State} {i : Instr} (e : CommandEffect s i t) (h : s.Inv) : t.Inv := by
  cases e with
  | ignored => exact h
  | clear | setDt | setSt => exact h.setBlock h.status
  | getDt => exact h.setHost rfl rfl
  | drawn x y n g c => exact (h.setBlock (b := { s.block with fb := g }) h.status).setHost rfl rfl
  | outside => exact h.setBlock (iff_of_false nofun nofun)
  | unreadable => exact h.hostFatal _

theorem HostOnly.inv {s t : State} (e : HostOnly s t) (h : s.Inv) : t.Inv := by
  refine ⟨?_, e.memory h.memory, e.stack h.stack⟩
  rw [e.eq]
  exact h.status

theorem execHostWord_inv (w : Word) {s : State} (h : s.Inv) : (execHostWord w s).Inv := by
  rcases execHostWord_cases w s with hown | ⟨f, hf⟩
  · exact hown.inv h
  · exact hf ▸ h.hostFatal f

theorem HostEffect.inv {s t : State} (e : HostEffect s t) (h : s.Inv) : t.Inv := by
  cases e with
  | idle ht => exact ht ▸ h.popTurn
  | fetchFault _ _ ht => exact ht ▸ h.popTurn.hostFatal _
  | command i _ ht => exact ht.inv h.popTurn.advance
  | ownWord w _ _ _ ht => exact ht ▸ execHostWord_inv w h.popTurn.advance

/-- A ROM within the length bound ends inside RAM (R33). -/
theorem rom_end_le {rom : List Byte} (hrom : rom.length ≤ 4096 - 0x200) : loadAddress + rom.length ≤ memSize := by
  rw [loadAddress, memSize]
  omega

/-- The font table ends inside RAM whatever its base (R33). -/
theorem font_end_le (c : Config) (font : Vector Byte 80) : c.fontBase.val + font.toList.length ≤ memSize := by
  rw [Vector.length_toList, memSize]
  omega

theorem romMemory_wf {rom : List Byte} (hrom : rom.length ≤ 4096 - 0x200) :
    (Memory.writeList [] loadAddress rom).wf = true := writeList_wf rfl (rom_end_le hrom)

theorem loadedMemory_wf {rom : List Byte} (c : Config) (font : Vector Byte 80) (hrom : rom.length ≤ 4096 - 0x200) :
    (loadedMemory c rom font).wf = true := writeList_wf (romMemory_wf hrom) (font_end_le c font)

theorem romFits_iff (rom : List Byte) : romFits rom = true ↔ rom.length ≤ 4096 - 0x200 := decide_eq_true_iff

theorem startUpTurn_host_of_fits {rom : List Byte} (font : Vector Byte 80) (s : State) (hrom : rom.length ≤ 4096 - 0x200) :
    (startUpTurn rom font s).host = { HostState.afterReset with mem := loadedMemory s.config rom font } :=
  if_pos ((romFits_iff rom).mpr hrom)

theorem startUpTurn_host_of_too_long {rom : List Byte} (font : Vector Byte 80) (s : State)
    (hrom : ¬ rom.length ≤ 4096 - 0x200) : (startUpTurn rom font s).host =
      { HostState.afterReset with loop := .notStarted, fault := some .romLoadFailure } :=
  if_neg (fun h => hrom ((romFits_iff rom).mp h))

theorem afterReset_statusAgrees (c : Config) : (Block.afterReset c).statusAgrees := iff_of_true rfl rfl

/-- A start-up builds the invariant anew: it keeps nothing of the state before. -/
theorem startUpTurn_inv (rom : List Byte) (font : Vector Byte 80) (s : State) : (startUpTurn rom font s).Inv := by
  by_cases hrom : rom.length ≤ 4096 - 0x200
  · have hhost := startUpTurn_host_of_fits font s hrom
    exact ⟨afterReset_statusAgrees _, by rw [hhost]; exact loadedMemory_wf _ font hrom, by rw [hhost]; exact Nat.zero_le _⟩
  · have hhost := startUpTurn_host_of_too_long font s hrom
    exact ⟨afterReset_statusAgrees _, by rw [hhost]; rfl, by rw [hhost]; exact Nat.zero_le _⟩

theorem tick_statusAgrees {b : Block} (h : b.statusAgrees) : b.tick.statusAgrees := by
  cases hb : b.halted with
  | true => rwa [tick_of_halted hb]
  | false => rw [tick_of_running hb]; exact h

theorem EventEffect.inv {s t : State} (e : EventEffect s t) (h : s.Inv) : t.Inv := by
  cases e with
  | tick _ ht => exact ht ▸ h.popTurn.setBlock (tick_statusAgrees h.status)
  | snapshot _ ht => exact ht ▸ ⟨h.status, h.memory, h.stack⟩
  | haltInput _ ht => exact ht ▸ h.popTurn.setBlock (haltInput_statusAgrees h.status)
  | reset _ ht => exact ht ▸ h.popTurn.setBlock (afterReset_statusAgrees _)
  | startUp rom font _ ht => exact ht ▸ startUpTurn_inv rom font _
  | keyDown k _ ht => rw [ht, keyDownTurn_host]; exact h.popTurn.setHost rfl rfl
  | keyUp k _ ht => exact ht ▸ h.popTurn.setHost rfl rfl

/-- Settles O42: the host's turn and every other agent's turn keep it, by what each can do. -/
theorem stepKeepsTheInvariant : Obligations.StepKeepsTheInvariant := by
  intro s t h hstep
  rcases step_cases hstep with ⟨-, hhost⟩ | ⟨-, hevent⟩
  · exact hhost.inv h
  · exact hevent.inv h

/-- Settles O43: RAM and stack are empty after reset. -/
theorem resetMeetsTheInvariant : Obligations.ResetMeetsTheInvariant :=
  ⟨afterReset_statusAgrees _, rfl, Nat.zero_le _⟩

end Sys2Proof.Machine
end

section
/-! The five commands (42_host_binding.md): what each leaves alone in the host, and how each can end. -/
namespace Sys2Proof.Machine

@[simp] theorem readV_vf_writeFlag (h : HostState) (c : Bool) : (h.writeFlag c).readV vf = flagByte c :=
  readV_writeV_self h vf _

theorem readV_writeFlag_of_ne (h : HostState) (c : Bool) {r : Reg} (hr : r ≠ vf) : (h.writeFlag c).readV r = h.readV r :=
  readV_writeV_of_ne h vf _ hr

/-- A flag of 0x01 is the flag of a set bit (R78). -/
theorem flagByte_eq_one_iff (c : Bool) : flagByte c = 0x01 ↔ c = true := by
  cases c <;> decide

/-- A command changes registers and the fault record of the host, and nothing else of it. -/
theorem CommandEffect.host_eq {s t : State} {i : Instr} (e : CommandEffect s i t) :
    t.host = { s.host with v := t.host.v, fault := t.host.fault } := by
  cases e <;> rfl

/-- A command writes no register but its destination (R44). -/
theorem CommandEffect.readV {s t : State} {i : Instr} (e : CommandEffect s i t) {r : Reg}
    (hr : some r ≠ commandDestination i) : t.host.readV r = s.host.readV r := by
  cases e with
  | drawn x y n g c => exact readV_writeFlag_of_ne _ c (fun h => hr (congrArg some h))
  | getDt x => exact readV_writeV_of_ne _ x _ (fun h => hr (congrArg some h))
  | ignored | clear | outside | unreadable | setDt | setSt => rfl

/-- Settles O41: the host's frame, the register frame, and that nothing outside block and host moves. -/
theorem commandsFrameTheHost : Obligations.CommandsFrameTheHost := by
  intro i s t h
  have e := exec_cases h
  refine ⟨fun r hr => e.readV hr, fun a => ?_, e.host_eq, e.eq⟩
  rw [e.host_eq]

/-- A word the host does not recognise counts and does nothing more (R45, R97). -/
theorem execHostWord_of_fallthrough {w : Word} (s : State) (h : decodeHost w = none) :
    execHostWord w s = s.setHost { s.host with fallthroughs := s.host.fallthroughs + 1 } := by
  simp only [execHostWord, h]

/-- Settles O39: a draw outside the grid and an unreadable sprite are the two ways not to complete. -/
theorem commandsCompleteOrHaltWithoutEffect : Obligations.CommandsCompleteOrHaltWithoutEffect := by
  refine ⟨fun i s hs => ?_, fun w s h => execHostWord_of_fallthrough s h⟩
  obtain ⟨t, ht, e⟩ := exec_effect i s
  refine ⟨t, ht, ?_⟩
  cases e with
  | ignored _ hhalted => simp [hs] at hhalted
  | outside => exact .inr (.inl ⟨rfl, rfl⟩)
  | unreadable => exact .inr (.inr ⟨haltInput_fb _, haltInput_dt _, haltInput_st _, haltInput_halted _, rfl⟩)
  | clear | drawn | getDt | setDt | setSt => exact .inl ⟨hs, rfl⟩

/-- Settles O40: a host word changes the host alone, or it is one of the host's fatal faults. -/
theorem hostWordsLeaveTheBlockAlone : Obligations.HostWordsLeaveTheBlockAlone := by
  intro w s hs
  rcases execHostWord_cases w s with hown | ⟨f, hf⟩
  · have hfault := hown.fault
    rw [hown.eq] at hfault ⊢
    exact ⟨rfl, rfl, rfl, .inl ⟨rfl, hfault⟩⟩
  · rw [hf]
    exact ⟨rfl, rfl, rfl, .inr ⟨haltInput_of_running _ hs, f, rfl⟩⟩

/-- Settles O32: each command runs on the running block the one before it left. -/
theorem setupCommandsFixTheBlock : Obligations.SetupCommandsFixTheBlock := fun _ _ _ hs =>
  ⟨_, _, _, execClear_running hs, execSetDt_running hs, execSetSt_running hs, congrArg (Block.mk _ _ _ · _) hs, rfl⟩

/-- Settles O36: R89's two items, for the commands and for the TICK. -/
theorem haltedBlockIgnoresCommands : Obligations.HaltedBlockIgnoresCommands :=
  fun _ hs => ⟨exec_halted hs, tick_of_halted hs⟩

end Sys2Proof.Machine
end

section
/-! The host step's placement (42_host_binding.md section 1): the program counter over a command, the fetch fault, and a word
placed from outside. -/
namespace Sys2Proof.Machine

/-- A command is issued by a host whose loop runs beside a running block (R73). -/
theorem State.issues.hostReady {s : State} {i : Instr} (h : s.issues i) : s.hostReady := h.2.1

/-- A word that was fetched stood at 4094 or below (R73 step 1). -/
theorem pc_le_of_fetchWord {h : HostState} {w : Word} (hw : h.fetchWord = some w) : h.pc.toNat ≤ 4094 := by
  by_contra hpc
  rw [fetchWord_eq_none_of_lt (by omega)] at hw
  cases hw

/-- Settles O10: the advance comes before the command, and no command writes program counter or stack. -/
theorem commandsAdvancePcByTwo : Obligations.CommandsAdvancePcByTwo := by
  intro s i h
  have ⟨_, _, w, hw, _⟩ := h
  obtain ⟨t, ht, e⟩ := exec_effect i (s.popTurn.setHost s.host.advance)
  refine ⟨t, (step_issues h).trans ht, ?_, ?_, pc_le_of_fetchWord hw⟩ <;> rw [e.host_eq] <;> rfl

/-- Settles O8: the fetch fault asserts the halt input of a running block. -/
theorem fetchFaultHaltsTheBlock : Obligations.FetchFaultHaltsTheBlock := by
  intro s rest hready hmoves hpc
  rw [step_host hready hmoves]
  exact ⟨_, hostCycle_of_no_word (fetchWord_eq_none_of_lt hpc), haltInput_of_running _ hready.1⟩

theorem readyToFetch_hostReady (s : State) : s.readyToFetch.hostReady := by
  refine ⟨?_, rfl⟩
  unfold State.readyToFetch
  cases hs : s.block.halted <;> simp [hs]

/-- `readyToFetch` touches the fault status of the block alone. -/
theorem readyToFetch_block (s : State) : s.readyToFetch.block =
    { s.block with halted := s.readyToFetch.block.halted, faultCause := s.readyToFetch.block.faultCause } := by
  unfold State.readyToFetch
  split <;> rfl

theorem readyToFetch_pc_le (s : State) : s.readyToFetch.host.pc.toNat + 2 ≤ 4096 := by
  unfold State.readyToFetch
  dsimp only
  split
  · assumption
  · decide

@[simp] theorem storeWordAtPc_pc (w : Word) (s : State) : (s.storeWordAtPc w).host.pc = s.host.pc := rfl

@[simp] theorem storeWordAtPc_mem (w : Word) (s : State) : (s.storeWordAtPc w).host.mem =
    s.host.mem.writeList s.host.pc.toNat [firstByte w, secondByte w] := rfl

/-- The stored word is the one fetched, where RAM is canonical and the program counter inside it (R28). -/
theorem fetchWord_storeWordAtPc {s : State} (w : Word) (hmem : s.host.mem.wf = true) (hpc : s.host.pc.toNat + 2 ≤ 4096) :
    (s.storeWordAtPc w).host.fetchWord = some w := by
  have hread := read_writeList (bytes := [firstByte w, secondByte w]) hmem hpc
  rw [fetchWord_eq, storeWordAtPc_pc, if_pos hpc, storeWordAtPc_mem, hread, hread]
  simp [wordOfBytes_bytes]

/-- The table's numbering of a word's bits is the decoder's. -/
theorem decodeTableWord_eq (nbits w : Nat) : decodeTableWord nbits w = decode (BitVec.ofNat 16 (w % 2 ^ nbits)) := by
  rw [decodeTableWord, decodeBytes_of_word, Option.map_map]
  exact Option.map_id'

/-- The placed word is what the host issues next. -/
theorem withFetchWord_issues {s : State} {w : Nat} {i : Instr} (hmem : s.host.mem.wf = true)
    (hi : decodeTableWord 16 w = some i) : (s.withFetchWord 16 w).issues i :=
  ⟨rfl, readyToFetch_hostReady s, _, fetchWord_storeWordAtPc _ hmem (readyToFetch_pc_le s), decodeTableWord_eq 16 w ▸ hi⟩

/-- Settles O9: the state run on is the one `withFetchWord` builds with the counter advanced. -/
theorem withFetchWordRunsTheWord : Obligations.WithFetchWordRunsTheWord := by
  intro s w i hmem hi
  have hissues := withFetchWord_issues hmem hi
  have hblock : (s.withFetchWord 16 w).block = _ := readyToFetch_block s
  exact ⟨_, step_issues hissues, rfl, hissues.hostReady.1, rfl, rfl, rfl,
    (congrArg Block.fb hblock :), (congrArg Block.dt hblock :), (congrArg Block.st hblock :)⟩

end Sys2Proof.Machine
end

section
/-! DRAW (40_display_ops.md section 2): the cells that `DXYN` covers, what a completed draw leaves in them and in VF, and how it
fails. -/
namespace Sys2Proof.Machine

/-- The cell (cx, cy) lies under a set bit of the sprite that `DXYN` draws from this state (R51). -/
def State.Covers (s : State) (x y : Reg) (n : Fin 16) (cx cy : Nat) : Prop :=
  SpriteBitSet s.config.spriteMsbFirst ((s.host.readV x).toNat % 64) ((s.host.readV y).toNat % 32) (s.host.spriteInRam n) cx cy

/-- `g'` is `g` with the cells of `P` complemented and no others. -/
def ComplementsOn (P : Nat → Nat → Prop) (g g' : Grid) : Prop :=
  ∀ cx cy, (P cx cy → g'.get cx cy = !g.get cx cy) ∧ (¬ P cx cy → g'.get cx cy = g.get cx cy)

/-- A completed draw, whole: the outcome, the grid it leaves and the bit it reports (R53, R54, R78). -/
theorem execDraw_spec {s : State} {x y : Reg} {n : Fin 16} (hs : s.block.halted = false) (hr : s.host.spriteReadable n)
    (hf : s.host.drawFits x y n) : ∃ g c,
      execDraw x y n s = .next { s with block := { s.block with fb := g }, host := s.host.writeFlag c } ∧
      s.block.draw s.config.spriteMsbFirst (s.host.readV x) (s.host.readV y) (s.host.spriteInRam n) =
        ({ s.block with fb := g }, some c) ∧
      ComplementsOn (s.Covers x y n) s.block.fb g ∧ (c = true ↔ ∃ cx cy, s.Covers x y n cx cy ∧ s.block.fb.get cx cy = true) := by
  obtain ⟨g, c, hdraw, hcells, hcollision⟩ := draw_inside (msb := s.config.spriteMsbFirst) hs (fits_iff.mp hf)
  exact ⟨g, c, by rw [execDraw_readable hs hr, hdraw]; rfl, hdraw, hcells, hcollision⟩

/-- Settles O12: the draw's grid is the old one complemented on the covered cells. -/
theorem drawXorsTheSprite : Obligations.DrawXorsTheSprite := by
  intro s x y n hs hr hf
  obtain ⟨g, c, hexec, -, hcells, -⟩ := execDraw_spec hs hr hf
  exact ⟨_, hexec, fun cx cy _ _ => hcells cx cy⟩

/-- Settles O13: VF is the flag byte of the bit that the block reports. -/
theorem drawReportsCollisionInVF : Obligations.DrawReportsCollisionInVF := by
  intro s x y n hs hr hf
  obtain ⟨g, c, hexec, hdraw, -, hcollision⟩ := execDraw_spec hs hr hf
  exact ⟨_, c, hexec, hdraw, hcollision, by rw [readV_vf_writeFlag, flagByte_eq_one_iff]⟩

/-- Settles O14: without a set cell under the sprite the reported bit is 0, and VF is written all the same. -/
theorem drawWithoutCollisionClearsVF : Obligations.DrawWithoutCollisionClearsVF := by
  intro s x y n hs hr hf hclear
  obtain ⟨g, c, hexec, -, -, hcollision⟩ := execDraw_spec hs hr hf
  have hc : c = false := by
    rw [← Bool.not_eq_true, hcollision]
    rintro ⟨cx, cy, hcovers, hset⟩
    exact Bool.false_ne_true ((hclear cx cy hcovers).symm.trans hset)
  exact ⟨_, hexec, by rw [readV_vf_writeFlag, hc]; rfl⟩

/-- Settles O15: a completed draw is one new grid and one write of VF. -/
theorem drawLeavesTheRest : Obligations.DrawLeavesTheRest := by
  intro s x y n hs hr hf
  obtain ⟨g, c, hexec, -⟩ := execDraw_spec hs hr hf
  exact ⟨_, hexec, rfl, rfl, fun r hne => readV_writeFlag_of_ne _ c hne, fun _ => rfl, rfl⟩

/-- The sprite of one row covers its origin row only, under the set bits of that row (R51). -/
theorem spriteBitSet_singleton (msb : Bool) (x0 y0 : Nat) (row : Byte) {c : Nat} (hc : c < 8) :
    SpriteBitSet msb x0 y0 [row] (x0 + c) y0 ↔ spriteBit msb row c = true := by
  constructor
  · rintro ⟨r, c', hr, -, hx, -, hbit⟩
    obtain rfl : c' = c := by omega
    obtain rfl : r = 0 := by simpa using hr
    exact hbit
  · exact fun hbit => ⟨0, c, by simp, hc, rfl, rfl, hbit⟩

/-- Settles O16: on a clear grid a cell is set exactly when it is covered, and the cover of one row is its bits. -/
theorem drawPutsBitSevenAtTheOrigin : Obligations.DrawPutsBitSevenAtTheOrigin := by
  intro s x y hmsb hs hgrid hr hf
  obtain ⟨g, b, hexec, -, hcells, -⟩ := execDraw_spec hs hr hf
  refine ⟨_, hexec, fun c hc => ?_⟩
  have hcovers : s.Covers x y 1 ((s.host.readV x).toNat % 64 + c) ((s.host.readV y).toNat % 32) ↔
      (s.host.mem.read s.host.i.toNat).getLsbD (7 - c) = true := by
    rw [State.Covers, hmsb]
    exact spriteBitSet_singleton true _ _ _ hc
  obtain ⟨hset, hkept⟩ := hcells ((s.host.readV x).toNat % 64 + c) ((s.host.readV y).toNat % 32)
  rw [hgrid, get_clear] at hset hkept
  cases hbit : (s.host.mem.read s.host.i.toNat).getLsbD (7 - c) with
  | true => exact hset (hcovers.mpr hbit)
  | false => exact hkept (fun h => Bool.false_ne_true (hbit.symm.trans (hcovers.mp h)))

/-- Settles O17: the premise is that the draw does not fit. -/
theorem drawOutsideTheGridHalts : Obligations.DrawOutsideTheGridHalts := by
  intro s x y n hs hr hn hout
  have hf : ¬ s.host.drawFits x y n := by
    rintro (h0 | ⟨hx, hy⟩) <;> omega
  exact execDraw_outside hs hr hf

/-- Settles O18: the sprite is fetched before the footprint is looked at. -/
theorem spriteFetchFaultComesFirst : Obligations.SpriteFetchFaultComesFirst := by
  intro s x y n hs hn hi
  have hr : ¬ s.host.spriteReadable n := by
    rintro (h0 | hend) <;> omega
  refine (execDraw_unreadable hs hr).trans ?_
  rw [State.hostFatal, haltInput_of_running _ hs]

/-! ### The laws of R55 -/

/-- Complementing the same cells twice gives back the grid (R55 law 3). -/
theorem ComplementsOn.twice {P : Nat → Nat → Prop} {g g' g'' : Grid} (h : ComplementsOn P g g') (h' : ComplementsOn P g' g'') :
    g'' = g := by
  refine grid_ext fun cx cy _ _ => ?_
  by_cases hP : P cx cy
  · rw [(h' cx cy).1 hP, (h cx cy).1 hP, Bool.not_not]
  · rw [(h' cx cy).2 hP, (h cx cy).2 hP]

/-- Complementing disjoint sets of cells commutes (R55 law 5). -/
theorem ComplementsOn.comm {P Q : Nat → Nat → Prop} {g gP gQ gPQ gQP : Grid} (hdisjoint : ∀ cx cy, ¬ (P cx cy ∧ Q cx cy))
    (hP : ComplementsOn P g gP) (hPQ : ComplementsOn Q gP gPQ) (hQ : ComplementsOn Q g gQ) (hQP : ComplementsOn P gQ gQP) :
    gPQ = gQP := by
  refine grid_ext fun cx cy _ _ => ?_
  by_cases p : P cx cy
  · have q : ¬ Q cx cy := fun q => hdisjoint cx cy ⟨p, q⟩
    rw [(hPQ cx cy).2 q, (hP cx cy).1 p, (hQP cx cy).1 p, (hQ cx cy).2 q]
  · by_cases q : Q cx cy
    · rw [(hPQ cx cy).1 q, (hP cx cy).2 p, (hQP cx cy).2 p, (hQ cx cy).1 q]
    · rw [(hPQ cx cy).2 q, (hP cx cy).2 p, (hQP cx cy).2 p, (hQ cx cy).2 q]

/-- Settles O19: the second draw covers the same cells, each of which holds the complement of what it held. -/
theorem sameDrawTwiceRestoresTheGrid : Obligations.SameDrawTwiceRestoresTheGrid := by
  intro s t x y n hs hr hf hexec hx hy
  obtain ⟨g, c, hfirst, -, hcells, -⟩ := execDraw_spec hs hr hf
  cases hfirst.symm.trans hexec
  have hf' : (s.host.writeFlag c).drawFits x y n := by
    rw [HostState.drawFits, hx, hy]
    exact hf
  obtain ⟨g', c', hexec', -, hcells', hcollision⟩ :=
    execDraw_spec (s := { s with block := { s.block with fb := g }, host := s.host.writeFlag c }) hs hr hf'
  have hsame : State.Covers { s with block := { s.block with fb := g }, host := s.host.writeFlag c } x y n = s.Covers x y n := by
    funext cx cy
    rw [State.Covers, hx, hy]
    rfl
  rw [hsame] at hcells' hcollision
  refine ⟨_, hexec', hcells.twice hcells', ?_⟩
  rw [readV_vf_writeFlag, flagByte_eq_one_iff, hcollision]
  refine exists_congr fun cx => exists_congr fun cy => and_congr_right fun hcovers => ?_
  rw [(hcells cx cy).1 hcovers, Bool.not_eq_true']

/-- Settles O20: B finds under its own bits what was there before A, and the two complements commute. -/
theorem disjointDrawsCommute : Obligations.DisjointDrawsCommute := by
  intro msb xa ya xb yb rowsA rowsB b hb hfa hfb hdisjoint
  obtain ⟨gA, cA, hA, hcellsA, -⟩ := draw_inside (msb := msb) (xIn := xa) (yIn := ya) hb hfa
  obtain ⟨gB, cB, hB, hcellsB, hcollisionB⟩ := draw_inside (msb := msb) (xIn := xb) (yIn := yb) hb hfb
  obtain ⟨gAB, cAB, hAB, hcellsAB, hcollisionAB⟩ :=
    draw_inside (msb := msb) (xIn := xb) (yIn := yb) (b := { b with fb := gA }) hb hfb
  obtain ⟨gBA, cBA, hBA, hcellsBA, -⟩ :=
    draw_inside (msb := msb) (xIn := xa) (yIn := ya) (b := { b with fb := gB }) hb hfa
  have hgrid : gAB = gBA := ComplementsOn.comm hdisjoint hcellsA hcellsAB hcellsB hcellsBA
  have hreport : cAB = cB := by
    rw [Bool.eq_iff_iff, hcollisionAB, hcollisionB]
    refine exists_congr fun cx => exists_congr fun cy => and_congr_right fun hcovers => ?_
    rw [(hcellsA cx cy).2 (fun h => hdisjoint cx cy ⟨h, hcovers⟩)]
  rw [hA, hB, hAB, hBA, hgrid, hreport]
  exact ⟨rfl, rfl⟩

end Sys2Proof.Machine
end

section
/-! The events (41_timer_ops.md section 2, 60_exceptions.md, 70_reset_and_hazards.md section 1): TICK, RESET, the halt input,
start-up, and the key wait. -/
namespace Sys2Proof.Machine

/-- Settles O24: one TICK is one countdown of each timer. -/
theorem tickCountsBothTimersDown : Obligations.TickCountsBothTimersDown := by
  intro s rest hs hsch
  refine ⟨_, step_tick hs hsch, fun h => ?_, fun h => congrArg countDown h, fun h => ?_, fun h => congrArg countDown h, rfl⟩
  · exact (congrArg (· + 1) (countDown_toNat s.block.dt)).trans (Nat.sub_add_cancel h)
  · exact (congrArg (· + 1) (countDown_toNat s.block.st)).trans (Nat.sub_add_cancel h)

/-- Settles O25: `k` TICKs are `k` countdowns of each timer. -/
theorem ticksReachTheFloorAndStay : Obligations.TicksReachTheFloorAndStay := fun k _ _ hs hsch =>
  ⟨_, run_ticks k hs hsch, countDown_iterate_toNat k _, countDown_iterate_toNat k _, rfl, rfl, rfl⟩

/-- Settles O33: the values of `State.reset`, read off. -/
theorem resetLeavesTheBlockInitial : Obligations.ResetLeavesTheBlockInitial :=
  ⟨fun x y _ _ => get_clear x y, rfl, rfl, rfl, rfl, rfl, fun _ => rfl, by decide, rfl⟩

/-- The reset values under the parameters' defaults (D5, D6). -/
theorem afterReset_of_default {c : Config} (h : c = Config.default) :
    (Block.afterReset c).dt = 0 ∧ (Block.afterReset c).st = 0 ∧ (Block.afterReset c).beep = false ∧
      ∀ x y, x < 64 → y < 32 → (Block.afterReset c).fb.get x y = false := by
  rw [h]
  exact ⟨rfl, rfl, rfl, fun x y _ _ => get_clear x y⟩

/-- Settles O34: RESET looks at the parameters alone. -/
theorem resetTurnClearsTheBlock : Obligations.ResetTurnClearsTheBlock :=
  fun _ _ hsch => ⟨_, step_cons hsch, rfl, rfl, afterReset_of_default⟩

/-- Settles O35: the halt input on a running and on a halted block. -/
theorem haltInputKeepsTheFirstCause : Obligations.HaltInputKeepsTheFirstCause := by
  intro s rest hsch
  rw [step_cons hsch, takeTurn]
  refine ⟨fun hs => ?_, fun hs => ?_⟩
  · rw [haltInput_of_running _ hs]
    rfl
  · rw [haltInput_of_halted _ hs]
    rfl

/-- RAM after a start-up whose ROM fits: the font over the ROM over zeros (R33, R102). -/
theorem read_loadedMemory {rom : List Byte} (c : Config) (font : Vector Byte 80) (hrom : rom.length ≤ 4096 - 0x200) (a : Nat) :
    (loadedMemory c rom font).read a =
      if c.fontBase.val ≤ a ∧ a < c.fontBase.val + 80 then font.toList.getD (a - c.fontBase.val) 0
      else if 0x200 ≤ a ∧ a < 0x200 + rom.length then rom.getD (a - 0x200) 0 else 0 := by
  rw [loadedMemory, read_writeList (romMemory_wf hrom) (font_end_le c font), read_writeList rfl (rom_end_le hrom),
    Vector.length_toList]
  rfl

/-- Settles O46: the host of a start-up with a ROM that fits, item by item. -/
theorem startUpLoadsRomAndFont : Obligations.StartUpLoadsRomAndFont := by
  intro s rom font rest hsch hrom
  refine ⟨_, step_cons hsch, rfl, ?_⟩
  rw [startUpTurn_host_of_fits font _ hrom]
  exact ⟨rfl, rfl, rfl, fun a _ => read_loadedMemory s.config font hrom a⟩

/-- Settles O47: the loop has not started and the block is not halted, so the next step stops by the ROM-load failure. -/
theorem romLoadFailureStartsNothing : Obligations.RomLoadFailureStartsNothing := by
  intro s rom font hsch hlong
  have hhost := startUpTurn_host_of_too_long font { s with schedule := [] } (by omega : ¬ rom.length ≤ 4096 - 0x200)
  refine ⟨_, step_cons hsch, rfl, by rw [hhost], ?_⟩
  exact step_fault_iff.mpr ⟨rfl, .inr ⟨rfl, by rw [hhost], rfl⟩⟩

/-! ### The key wait -/

/-- A key going down where it gives no edge or nobody waits for one: the snapshot alone changes (R92). -/
theorem keyDownTurn_of_not_waiting {k : Fin 16} {s : State}
    (h : s.block.halted = true ∨ s.host.keys[k.val] = true ∨ ∀ x, s.host.loop ≠ .parked x) :
    keyDownTurn k s = s.setHost { s.host with keys := s.host.keys.set k.val true } := by
  unfold keyDownTurn
  dsimp only
  split
  · next hhalted hkey hloop => simp [hhalted, hkey, hloop] at h
  · rfl

/-- A key going down that ends a wait (R98). -/
theorem keyDownTurn_of_waiting {k : Fin 16} {s : State} {x : Reg} (hs : s.block.halted = false)
    (hkey : s.host.keys[k.val] = false) (hloop : s.host.loop = .parked x) : keyDownTurn k s =
      s.setHost { HostState.writeV { s.host with keys := s.host.keys.set k.val true } x (BitVec.ofNat 8 k.val) with
        loop := .running } := by
  unfold keyDownTurn
  simp only [hs, hkey, hloop]

/-- A host that is parked does not issue. -/
theorem not_hostReady_of_parked {s : State} {x : Reg} (h : s.host.loop = .parked x) : ¬ s.hostReady := by
  rintro ⟨-, hrunning⟩
  cases h.symm.trans hrunning

/-- Settles O48: the parked host's turn is idle with or without a schedule, and the edge's turn is a register write. -/
theorem keyWaitIdlesTheHostOnly : Obligations.KeyWaitIdlesTheHostOnly := by
  intro s x hs hloop
  refine ⟨fun hsch => ?_, fun rest hsch => ?_, fun rest hsch => step_cons hsch, fun k rest hsch hkey => ?_⟩
  · refine step_of_turn (s := s) ?_ (by simp [hs, hloop])
    have hpop : s.popTurn = s := by rw [State.popTurn, hsch, List.tail_nil, ← hsch]
    rw [State.mover, hsch, hpop]
    exact hostTurn_of_not_ready (not_hostReady_of_parked hloop)
  · rw [step_cons hsch]
    exact hostTurn_of_not_ready (s := { s with schedule := rest }) (not_hostReady_of_parked hloop)
  · rw [step_cons hsch, takeTurn, keyDownTurn_of_waiting (s := { s with schedule := rest }) hs hkey hloop]
    exact ⟨_, rfl, rfl, rfl, readV_writeV_self _ x _, fun r hr => readV_writeV_of_ne _ x _ hr⟩

end Sys2Proof.Machine
end

section
/-! What a step leaves alone (10_state.md sections 1 and 5): the parameters, the turns still pending, the grid. -/
namespace Sys2Proof.Machine

/-- Another agent's turn leaves the parameters and the turns after it alone. -/
theorem EventEffect.config_schedule {s t : State} (e : EventEffect s t) : t.config = s.config ∧ t.schedule = s.schedule.tail := by
  cases e with
  | keyDown k _ ht => rw [ht, keyDownTurn_host]; exact ⟨rfl, rfl⟩
  | tick _ ht | snapshot _ ht | haltInput _ ht | reset _ ht | startUp _ _ _ ht | keyUp _ _ ht => rw [ht]; exact ⟨rfl, rfl⟩

/-- Every step keeps the parameters (R23) and uses up one turn (R35). -/
theorem step_config_schedule {s t : State} (h : step s = .next t) : t.config = s.config ∧ t.schedule = s.schedule.tail := by
  rcases step_cases h with ⟨-, hhost⟩ | ⟨-, hevent⟩
  · rw [hhost.eq]
    exact ⟨rfl, rfl⟩
  · exact hevent.config_schedule

/-- Settles O44: the host's turn and every event copy the parameters over. -/
theorem stepNeverWritesTheParameters : Obligations.StepNeverWritesTheParameters := fun _ _ h => (step_config_schedule h).1

theorem tick_fb (b : Block) : b.tick.fb = b.fb := by
  unfold Block.tick
  split <;> rfl

/-- The grid over one command: unchanged, or the command was CLEAR or DRAW (R11). -/
theorem CommandEffect.fb {s t : State} {i : Instr} (e : CommandEffect s i t) :
    t.block.fb = s.block.fb ∨ i = .clear ∨ ∃ x y n, i = .draw x y n := by
  cases e with
  | clear => exact .inr (.inl rfl)
  | drawn x y n => exact .inr (.inr ⟨x, y, n, rfl⟩)
  | unreadable => exact .inl (haltInput_fb _)
  | ignored | outside | getDt | setDt | setSt => exact .inl rfl

/-- No host word touches the grid (R45, R49). -/
theorem execHostWord_fb (w : Word) (s : State) : (execHostWord w s).block.fb = s.block.fb := by
  rcases execHostWord_cases w s with hown | ⟨f, hf⟩
  · rw [hown.eq]
  · rw [hf]
    exact haltInput_fb _

/-- The grid over the host's turn. -/
theorem HostEffect.fb {s t : State} (e : HostEffect s t) :
    t.block.fb = s.block.fb ∨ s.issues .clear ∨ ∃ x y n, s.issues (.draw x y n) := by
  cases e with
  | idle ht => exact .inl (by rw [ht, popTurn_block])
  | fetchFault _ _ ht => exact .inl (by rw [ht]; exact haltInput_fb _)
  | ownWord w _ _ _ ht => exact .inl (by rw [ht, execHostWord_fb]; rfl)
  | command i hi ht =>
    refine ht.fb.imp_right (Or.imp ?_ ?_)
    · exact fun h => h ▸ hi
    · exact fun ⟨x, y, n, h⟩ => ⟨x, y, n, h ▸ hi⟩

/-- Settles O29: of the other agents' turns only RESET and start-up build a new grid. -/
theorem gridWrittenOnlyByDisplayCommands : Obligations.GridWrittenOnlyByDisplayCommands := by
  intro s t h hne
  rcases step_cases h with ⟨-, hhost⟩ | ⟨-, hevent⟩
  · exact .inr (.inr (hhost.fb.resolve_left hne))
  · cases hevent with
    | reset hm _ => exact .inl hm
    | startUp rom font hm _ => exact .inr (.inl ⟨rom, font, hm⟩)
    | tick _ ht => exact absurd (by rw [ht]; exact tick_fb _) hne
    | haltInput _ ht => exact absurd (by rw [ht]; exact haltInput_fb _) hne
    | keyDown k _ ht => exact absurd (by rw [ht, keyDownTurn_block, popTurn_block]) hne
    | snapshot _ ht | keyUp _ _ ht => exact absurd (by rw [ht]; rfl) hne

end Sys2Proof.Machine
end

section
/-! The halted state and safe runs (60_exceptions.md section 1): what keeps a machine stopped, and where runs end. -/
namespace Sys2Proof.Machine

/-- The turns that start the machine anew. -/
def Turn.Restarts (turn : Turn) : Prop := turn = .reset ∨ ∃ rom font, turn = .startUp rom font

theorem not_restarts_iff {turn : Turn} : ¬ turn.Restarts ↔ turn ≠ .reset ∧ ∀ rom font, turn ≠ .startUp rom font := by
  simp only [Turn.Restarts, not_or, not_exists, ne_eq]

theorem not_hostReady_of_faulted {s : State} (h : s.faulted) : ¬ s.hostReady := by
  rintro ⟨hrunning, hloop⟩
  rcases h with hhalted | hstarted
  · cases hrunning.symm.trans hhalted
  · cases hloop.symm.trans hstarted

/-- A host that has stopped or waits does nothing on its turn. -/
theorem HostEffect.eq_of_not_ready {s t : State} (e : HostEffect s t) (h : ¬ s.hostReady) : t = s.popTurn := by
  cases e with
  | idle ht => exact ht
  | fetchFault hr => exact absurd hr h
  | command i hi => exact absurd hi.hostReady h
  | ownWord w hr => exact absurd hr h

/-- Settles O37: each turn on a halted block, by what a halted block or a stopped host ignores. -/
theorem haltedStateIsFrozen : Obligations.HaltedStateIsFrozen := by
  refine fun s hs => ⟨fun hsch => step_fault_iff.mpr ⟨hsch, .inl ⟨hs, rfl⟩⟩, fun turn rest hsch hreset hstart => ?_⟩
  rw [step_cons hsch]
  cases turn with
  | host => exact ⟨_, hostTurn_of_not_ready (not_hostReady_of_faulted (.inl hs)), rfl, rfl, rfl⟩
  | tick => exact ⟨_, rfl, tick_of_halted hs, rfl, rfl⟩
  | haltInput => exact ⟨_, rfl, haltInput_of_halted _ hs, rfl, rfl⟩
  | snapshot | keyUp => exact ⟨_, rfl, rfl, rfl, rfl⟩
  | keyDown k =>
    rw [takeTurn, keyDownTurn_of_not_waiting (s := { s with schedule := rest }) (.inl hs)]
    exact ⟨_, rfl, rfl, rfl, rfl⟩
  | reset => exact absurd rfl hreset
  | startUp rom font => exact absurd rfl (hstart rom font)

/-- An event that does not restart the machine leaves both faulted conditions in place. -/
theorem EventEffect.keeps_faulted {s t : State} (e : EventEffect s t) (hm : ¬ s.mover.Restarts) :
    (s.block.halted = true → t.block.halted = true) ∧ (s.host.loop = .notStarted → t.host.loop = .notStarted) := by
  cases e with
  | tick _ ht =>
    rw [ht]
    exact ⟨fun hs => by rw [setBlock_block, tick_of_halted hs, hs], id⟩
  | haltInput _ ht =>
    rw [ht]
    exact ⟨fun _ => haltInput_halted _, id⟩
  | keyDown k _ ht =>
    rw [ht, keyDownTurn_block]
    exact ⟨id, fun hloop => by rw [keyDownTurn_of_not_waiting (.inr (.inr (by simp [hloop])))]; exact hloop⟩
  | snapshot _ ht | keyUp _ _ ht =>
    rw [ht]
    exact ⟨id, id⟩
  | reset hm' => exact absurd (.inl hm') hm
  | startUp rom font hm' => exact absurd (.inr ⟨rom, font, hm'⟩) hm

theorem step_keeps_faulted {s t : State} (h : step s = .next t) (hm : ¬ s.mover.Restarts) :
    (s.block.halted = true → t.block.halted = true) ∧ (s.host.loop = .notStarted → t.host.loop = .notStarted) := by
  rcases step_cases h with ⟨-, hhost⟩ | ⟨-, hevent⟩
  · refine ⟨fun hs => ?_, fun hloop => ?_⟩
    · rwa [hhost.eq_of_not_ready (not_hostReady_of_faulted (.inl hs))]
    · rwa [hhost.eq_of_not_ready (not_hostReady_of_faulted (.inr hloop))]
  · exact hevent.keeps_faulted hm

/-- A run of one more step, taken apart, for any machine behind the host's interface. -/
theorem core_run_succ_inv (M : Host.Core) {s t : M.State} {k : Nat} (h : M.run (k + 1) s = .next t) :
    ∃ u, M.step s = .next u ∧ M.run k u = .next t := by
  rw [Host.Core.run] at h
  split at h
  · next u hu => exact ⟨u, hu, h⟩
  · cases h
  · cases h

theorem run_succ_inv {s t : State} {k : Nat} (h : Host.Core.run Sys2Proof.core (k + 1) s = .next t) :
    ∃ u, step s = .next u ∧ Host.Core.run Sys2Proof.core k u = .next t := core_run_succ_inv Sys2Proof.core h

/-- A schedule without a restart gives the next move to nobody who restarts. -/
theorem mover_not_restarts {s : State} (h : ∀ turn ∈ s.schedule, ¬ turn.Restarts) : ¬ s.mover.Restarts := by
  rw [State.mover]
  cases hsch : s.schedule with
  | nil => simp [Turn.Restarts]
  | cons turn rest => exact h turn (by simp [hsch])

/-- Both faulted conditions stay over every run without a restart. -/
theorem run_keeps_faulted (k : Nat) : ∀ {s t : State}, (∀ turn ∈ s.schedule, ¬ turn.Restarts) →
    Host.Core.run Sys2Proof.core k s = .next t →
    (s.block.halted = true → t.block.halted = true) ∧ (s.host.loop = .notStarted → t.host.loop = .notStarted) := by
  induction k with
  | zero =>
    rintro s t - h
    cases h
    exact ⟨id, id⟩
  | succ k ih =>
    intro s t hsch h
    obtain ⟨u, hstep, hrun⟩ := run_succ_inv h
    obtain ⟨hhalted, hloop⟩ := step_keeps_faulted hstep (mover_not_restarts hsch)
    have hsch' : ∀ turn ∈ u.schedule, ¬ turn.Restarts := fun turn hturn =>
      hsch turn (List.mem_of_mem_tail ((step_config_schedule hstep).2 ▸ hturn))
    exact ⟨(ih hsch' hrun).1 ∘ hhalted, (ih hsch' hrun).2 ∘ hloop⟩

/-- Settles O38: the step lemma `step_keeps_faulted`, carried over the run by `run_keeps_faulted`. -/
theorem onlyResetLeavesTheHaltedState : Obligations.OnlyResetLeavesTheHaltedState := fun k _ _ hsch h =>
  run_keeps_faulted k (fun turn hturn => not_restarts_iff.mpr (hsch turn hturn)) h

/-! ### Safe runs -/

/-- Every turn answers a next state; in particular no arm of the machine refuses or faults inside a turn. -/
theorem takeTurn_next (turn : Turn) (s : State) : ∃ t, takeTurn turn s = .next t := by
  obtain ⟨t, -, ht, -⟩ := takeTurn_alike turn s s.block.st
  exact ⟨t, ht⟩

theorem step_next_of_not_faulted {s : State} (h : ¬ s.faulted) : ∃ t, step s = .next t := by
  obtain ⟨t, ht⟩ := takeTurn_next s.mover s.popTurn
  exact ⟨t, step_of_turn ht (fun hend => h hend.2)⟩

theorem step_fault_of_faulted {s : State} (h : s.faulted) (hsch : s.schedule = []) : ∃ f, step s = .fault f := by
  cases hs : s.block.halted with
  | true => exact ⟨_, step_fault_iff.mpr ⟨hsch, .inl ⟨hs, rfl⟩⟩⟩
  | false =>
    have hloop := h.resolve_left (by simp [hs])
    exact ⟨_, step_fault_iff.mpr ⟨hsch, .inr ⟨hs, hloop, rfl⟩⟩⟩

/-- A run that reaches `t` is safe exactly when no fault has ended the machine in `t`. -/
theorem runsSafely_iff {k : Nat} {s t : State} (h : Host.Core.run Sys2Proof.core k s = .next t) :
    RunsSafely k s ↔ ¬ t.faulted := by
  refine ⟨?_, fun ht => ⟨t, h, ht⟩⟩
  rintro ⟨t', h', ht'⟩
  cases h.symm.trans h'
  exact ht'

/-- Settles O49: a machine that is not faulted steps on, and a faulted one with nothing pending stops. -/
theorem safeRunsEndWhereTheMachineGoesOn : Obligations.SafeRunsEndWhereTheMachineGoesOn := by
  refine ⟨?_, fun k s t h hunsafe hsch => ?_, fun s rom font rest hsch hlong => ?_⟩
  · rintro k s ⟨t, h, ht⟩
    obtain ⟨u, hu⟩ := step_next_of_not_faulted ht
    obtain ⟨hhalted, hloop⟩ := not_or.mp ht
    exact ⟨t, u, h, by simpa using hhalted, hloop, hu⟩
  · rw [runsSafely_iff h, not_not] at hunsafe
    exact step_fault_of_faulted hunsafe hsch
  · rw [runsSafely_iff (run_succ 0 (step_cons hsch)), not_not]
    exact .inr (by rw [startUpTurn_host_of_too_long font _ (by omega)])

end Sys2Proof.Machine
end

section
/-! One instant (41_timer_ops.md section 2, 20_memory.md section 4): a command with a TICK or a SNAPSHOT beside it. -/
namespace Sys2Proof.Machine

/-- The machine with other turns pending. -/
def State.withSchedule (s : State) (turns : List Turn) : State := { s with schedule := turns }

theorem finishDraw_withSchedule (r : Block × Option Bool) (s : State) (turns : List Turn) :
    finishDraw r (s.withSchedule turns) = (finishDraw r s).withSchedule turns := by
  obtain ⟨b, _ | c⟩ := r <;> rfl

/-- A command neither reads nor writes the turns after it. -/
theorem exec_withSchedule {i : Instr} {s t : State} (turns : List Turn) (h : exec i s = .next t) :
    exec i (s.withSchedule turns) = .next (t.withSchedule turns) := by
  cases hs : s.block.halted with
  | true =>
    cases (exec_halted hs i).symm.trans h
    exact exec_halted (s := s.withSchedule turns) hs i
  | false =>
    cases i with
    | clear => cases (execClear_running hs).symm.trans h; exact execClear_running (s := s.withSchedule turns) hs
    | getDt x => cases (execGetDt_running hs).symm.trans h; exact execGetDt_running (s := s.withSchedule turns) hs
    | setDt x => cases (execSetDt_running hs).symm.trans h; exact execSetDt_running (s := s.withSchedule turns) hs
    | setSt x => cases (execSetSt_running hs).symm.trans h; exact execSetSt_running (s := s.withSchedule turns) hs
    | draw x y n =>
      by_cases hr : s.host.spriteReadable n
      · cases (execDraw_readable hs hr).symm.trans h
        rw [← finishDraw_withSchedule]
        exact execDraw_readable (s := s.withSchedule turns) hs hr
      · cases (execDraw_unreadable hs hr).symm.trans h
        exact execDraw_unreadable (s := s.withSchedule turns) hs hr

/-- The command of an instant runs as it would alone, and the instant's other turns are then pending. -/
theorem step_present_command {s t : State} {i : Instr} (tick snapshot : Bool) (hsch : s.schedule = []) (hi : s.issues i)
    (h : step s = .next t) :
    step (s.present ⟨true, tick, snapshot⟩) = .next (t.withSchedule (Instant.turns ⟨false, tick, snapshot⟩)) := by
  have hpresent : (s.present ⟨true, tick, snapshot⟩).schedule = .host :: Instant.turns ⟨false, tick, snapshot⟩ := by
    rw [State.present, hsch]
    rfl
  have hissues : (s.present ⟨true, tick, snapshot⟩).issues i := ⟨by rw [State.mover, hpresent]; rfl, hi.2⟩
  rw [step_issues hi] at h
  rw [step_issues hissues, State.popTurn, hpresent]
  exact exec_withSchedule _ h

/-- A command that ends halted has touched neither timer. -/
theorem CommandEffect.timers_of_halted {s t : State} {i : Instr} (e : CommandEffect s i t) (h : t.block.halted = true) :
    t.block.dt = s.block.dt ∧ t.block.st = s.block.st := by
  cases e with
  | setDt _ hs | setSt _ hs => cases hs.symm.trans h
  | unreadable => exact ⟨haltInput_dt _, haltInput_st _⟩
  | ignored | clear | drawn | outside | getDt => exact ⟨rfl, rfl⟩

/-- The last turn pending is taken on the state with nothing pending. -/
theorem step_withSchedule_single {s : State} (turn : Turn) (hsch : s.schedule = []) :
    step (s.withSchedule [turn]) = takeTurn turn s := by
  cases s
  cases hsch
  rfl

theorem tick_dt_toNat {b : Block} (hb : b.halted = false) : b.tick.dt.toNat = b.dt.toNat - 1 := by
  rw [tick_of_running hb, countDown_toNat]

theorem tick_st_toNat {b : Block} (hb : b.halted = false) : b.tick.st.toNat = b.st.toNat - 1 := by
  rw [tick_of_running hb, countDown_toNat]

/-- Settles O45: the command runs first, and the second turn acts on what it left. -/
theorem commandGoesBeforeACoincidentTick : Obligations.CommandGoesBeforeACoincidentTick := by
  intro s i hsch hi
  obtain ⟨t, ht, e⟩ := exec_effect i (s.popTurn.setHost s.host.advance)
  have hstep : step s = .next t := (step_issues hi).trans ht
  have hempty : t.schedule = [] := by rw [(step_config_schedule hstep).2, hsch]; rfl
  have hrunning : (s.popTurn.setHost s.host.advance).block.halted = false := hi.hostReady.1
  refine ⟨t, hstep, ?_, ?_, fun hhalted => ⟨tick_of_halted hhalted, e.timers_of_halted hhalted⟩, ?_, ?_, ?_⟩
  · exact (run_succ 1 (step_present_command true false hsch hi hstep)).trans
      (run_succ 0 (step_withSchedule_single .tick hempty))
  · exact (run_succ 1 (step_present_command false true hsch hi hstep)).trans
      (run_succ 0 (step_withSchedule_single .snapshot hempty))
  · rintro x rfl
    cases (execSetDt_running hrunning).symm.trans ht
    exact tick_dt_toNat hrunning
  · rintro x rfl
    cases (execSetSt_running hrunning).symm.trans ht
    exact tick_st_toNat hrunning
  · rintro x rfl
    cases (execGetDt_running hrunning).symm.trans ht
    exact ⟨readV_writeV_self _ x _, tick_dt_toNat hrunning⟩

end Sys2Proof.Machine
end

section
/-! That the host sees the grid through VF alone (60_exceptions.md section 2): two machines that differ in the grid alone, side
by side. -/
namespace Sys2Proof.Machine

/-- The block with another grid. -/
def Block.withFb (b : Block) (g : Grid) : Block := { b with fb := g }

/-- The machine with another grid. -/
def State.withFb (s : State) (g : Grid) : State := { s with block := s.block.withFb g }

theorem haltInput_withFb (b : Block) (g : Grid) : (b.withFb g).haltInput = b.haltInput.withFb g := by
  cases hb : b.halted with
  | true => rw [haltInput_of_halted b hb, haltInput_of_halted (b.withFb g) hb]
  | false => rw [haltInput_of_running b hb, haltInput_of_running (b.withFb g) hb]; rfl

theorem tick_withFb (b : Block) (g : Grid) : (b.withFb g).tick = b.tick.withFb g := by
  cases hb : b.halted with
  | true => rw [tick_of_halted hb, tick_of_halted (b := b.withFb g) hb]
  | false => rw [tick_of_running hb, tick_of_running (b := b.withFb g) hb]; rfl

theorem hostFatal_withFb (f : HostFault) (s : State) (g : Grid) : (s.withFb g).hostFatal f = (s.hostFatal f).withFb g := by
  rw [State.hostFatal, State.withFb, haltInput_withFb]
  rfl

theorem keyDownTurn_withFb (k : Fin 16) (s : State) (g : Grid) : keyDownTurn k (s.withFb g) = (keyDownTurn k s).withFb g := by
  rw [State.withFb, State.withFb, keyDownTurn_block]
  exact keyDownTurn_blind k s _ rfl

/-- No host word reads the grid: it does not read the block at all. -/
theorem execHostWord_withFb (w : Word) (s : State) (g : Grid) : execHostWord w (s.withFb g) = (execHostWord w s).withFb g := by
  obtain ⟨fatal, hblind⟩ := execHostWord_blind w s
  have hself : execHostWord w s = { execHostWord w s with block := if fatal then s.block.haltInput else s.block } :=
    hblind s.block
  rw [hself]
  refine (hblind (s.block.withFb g)).trans ?_
  cases fatal with
  | true => rw [haltInput_withFb]; rfl
  | false => rfl

/-- `t'` is `t` but for the grid, for VF where `Draws` holds, and for the presenter's copy where `Copies` holds. -/
structure AlikeButGrid (Draws Copies : Prop) (t t' : State) : Prop where
  readV : ∀ r, r ≠ vf → t'.host.readV r = t.host.readV r
  host : t'.host = { t.host with v := t'.host.v }
  flag : t'.host = t.host ∨ Draws
  block : t'.block = { t.block with fb := t'.block.fb }
  rest : t' = { t with block := t'.block, host := t'.host, presenter := t'.presenter }
  copy : t'.presenter = t.presenter ∨ Copies

section Alike

variable {Draws Copies : Prop}

theorem alikeButGrid_withFb (t : State) (g : Grid) : AlikeButGrid Draws Copies t (t.withFb g) :=
  ⟨fun _ _ => rfl, rfl, .inl rfl, rfl, rfl, .inl rfl⟩

/-- Two outcomes that are next states alike in this sense. -/
def OutcomesAlike (Draws Copies : Prop) (o o' : Host.Outcome State Fault Refusal) : Prop :=
  ∃ t t', o = .next t ∧ o' = .next t' ∧ AlikeButGrid Draws Copies t t'

theorem OutcomesAlike.of_withFb {t t' : State} {g : Grid} (h : t' = t.withFb g) :
    OutcomesAlike Draws Copies (.next t) (.next t') :=
  ⟨t, t', rfl, rfl, h ▸ alikeButGrid_withFb t g⟩

/-- A draw faults alike whatever the grid holds; a completed one answers by the grid and VF alone. -/
theorem execDraw_grid {s : State} (x y : Reg) (n : Fin 16) (g : Grid) (hs : s.block.halted = false) (hdraws : Draws) :
    OutcomesAlike Draws Copies (execDraw x y n s) (execDraw x y n (s.withFb g)) := by
  by_cases hr : s.host.spriteReadable n
  · by_cases hf : s.host.drawFits x y n
    · obtain ⟨g₁, c₁, h₁, -⟩ := execDraw_inside hs hr hf
      obtain ⟨g₂, c₂, h₂, -⟩ := execDraw_inside (s := s.withFb g) hs hr hf
      refine ⟨_, _, h₁, h₂, fun r hne => ?_, rfl, .inr hdraws, rfl, rfl, .inl rfl⟩
      exact (readV_writeFlag_of_ne _ c₂ hne).trans (readV_writeFlag_of_ne _ c₁ hne).symm
    · rw [execDraw_outside hs hr hf, execDraw_outside (s := s.withFb g) hs hr hf]
      exact .of_withFb (g := g) rfl
  · rw [execDraw_unreadable hs hr, execDraw_unreadable (s := s.withFb g) hs hr]
    exact .of_withFb (hostFatal_withFb _ s g)

/-- No command but a draw lets the grid reach the host. -/
theorem exec_grid (i : Instr) (s : State) (g : Grid) (hdraws : ∀ x y n, i = .draw x y n → Draws) :
    OutcomesAlike Draws Copies (exec i s) (exec i (s.withFb g)) := by
  cases hs : s.block.halted with
  | true =>
    rw [exec_halted hs, exec_halted (s := s.withFb g) hs]
    exact .of_withFb rfl
  | false =>
    cases i with
    | clear => exact ⟨_, _, execClear_running hs, execClear_running (s := s.withFb g) hs, alikeButGrid_withFb _ Grid.clear⟩
    | draw x y n => exact execDraw_grid x y n g hs (hdraws x y n rfl)
    | getDt x => exact ⟨_, _, execGetDt_running hs, execGetDt_running (s := s.withFb g) hs, alikeButGrid_withFb _ g⟩
    | setDt x => exact ⟨_, _, execSetDt_running hs, execSetDt_running (s := s.withFb g) hs, alikeButGrid_withFb _ g⟩
    | setSt x => exact ⟨_, _, execSetSt_running hs, execSetSt_running (s := s.withFb g) hs, alikeButGrid_withFb _ g⟩

theorem hostCycle_grid (s : State) (g : Grid)
    (hdraws : ∀ w x y n, s.host.fetchWord = some w → decode w = some (.draw x y n) → Draws) :
    OutcomesAlike Draws Copies (hostCycle s) (hostCycle (s.withFb g)) := by
  cases hw : s.host.fetchWord with
  | none =>
    rw [hostCycle_of_no_word hw, hostCycle_of_no_word (s := s.withFb g) hw]
    exact .of_withFb (hostFatal_withFb _ s g)
  | some w =>
    cases hi : decode w with
    | some i =>
      rw [hostCycle_of_command hw hi, hostCycle_of_command (s := s.withFb g) hw hi]
      exact exec_grid i (s.setHost s.host.advance) g (fun x y n h => hdraws w x y n hw (h ▸ hi))
    | none =>
      rw [hostCycle_of_own_word hw hi, hostCycle_of_own_word (s := s.withFb g) hw hi]
      exact .of_withFb (execHostWord_withFb w (s.setHost s.host.advance) g)

/-- Whoever moves, the grid reaches the host by a draw alone and the presenter by a SNAPSHOT alone. -/
theorem takeTurn_grid (turn : Turn) (s : State) (g : Grid)
    (hdraws : ∀ w x y n, turn = .host → s.hostReady → s.host.fetchWord = some w → decode w = some (.draw x y n) → Draws)
    (hcopies : turn = .snapshot → Copies) :
    OutcomesAlike Draws Copies (takeTurn turn s) (takeTurn turn (s.withFb g)) := by
  cases turn with
  | host =>
    rw [takeTurn, takeTurn]
    by_cases hready : s.hostReady
    · rw [hostTurn_ready hready, hostTurn_ready (s := s.withFb g) hready]
      exact hostCycle_grid s g (fun w x y n => hdraws w x y n rfl hready)
    · rw [hostTurn_of_not_ready hready, hostTurn_of_not_ready (s := s.withFb g) hready]
      exact .of_withFb rfl
  | tick => exact .of_withFb (g := g) (congrArg s.setBlock (tick_withFb s.block g))
  | haltInput => exact .of_withFb (g := g) (congrArg s.setBlock (haltInput_withFb s.block g))
  | snapshot => exact ⟨_, _, rfl, rfl, fun _ _ => rfl, rfl, .inl rfl, rfl, rfl, .inr (hcopies rfl)⟩
  | reset | startUp => exact .of_withFb (g := s.config.resetGrid) rfl
  | keyDown k => exact .of_withFb (keyDownTurn_withFb k s g)
  | keyUp k => exact .of_withFb (g := g) rfl

end Alike

/-- The step lemma of the relation, with the two ways out of the grid named. -/
theorem step_withFb {s t : State} (h : step s = .next t) (g : Grid) : ∃ t', step (s.withFb g) = .next t' ∧
    AlikeButGrid (∃ x y n, s.issues (.draw x y n)) (s.mover = .snapshot) t t' := by
  obtain ⟨t₁, t', hturn, hturn', halike⟩ := takeTurn_grid
    (Draws := ∃ x y n, s.issues (.draw x y n)) (Copies := s.mover = .snapshot) s.mover s.popTurn g
    (fun w x y n hm hready hw hi => ⟨x, y, n, hm, hready, w, hw, hi⟩) id
  cases hturn.symm.trans (step_next h)
  exact ⟨t', step_of_turn (s := s.withFb g) hturn' (not_ended_of_step (s := s) h), halike⟩

/-- Settles O30: `step_withFb` for the next states, and the stops do not look at the grid. -/
theorem gridReachesTheHostOnlyThroughVF : Obligations.GridReachesTheHostOnlyThroughVF := by
  refine fun s g => ⟨fun f h => step_fault_of_halted_eq rfl h, fun t h => ?_⟩
  obtain ⟨t', hstep, halike⟩ := step_withFb h g
  exact ⟨t', hstep, halike.readV, halike.host, halike.flag, halike.block, halike.rest, halike.copy⟩

end Sys2Proof.Machine
end
